-- ==== Sys2Proof/Word.lean ====
section
/-! DEFINITION. The word types of the engine and the truncations of spec/00_scope.md R10. Every value is
unsigned; arithmetic is done on natural numbers and narrowed at the end. -/

namespace Sys2Proof

/-- An 8-bit value: a general register, a timer, a byte of memory, an immediate `kk`. -/
abbrev Byte := BitVec 8

/-- A 16-bit value: an opcode, `pc`, `I`, a stack entry. -/
abbrev Word := BitVec 16

/-- The index of a general register (the fields `x` and `y` of R71) or of a key (R31). -/
abbrev RegId := Fin 16

/-- The register that doubles as the flag: `VF` is `V[15]` (R21). -/
abbrev VF : RegId := 15

/-- `trunc_8` of R10. -/
abbrev trunc8 (n : Nat) : Byte := BitVec.ofNat 8 n

/-- `trunc_16` of R10. -/
abbrev trunc16 (n : Nat) : Word := BitVec.ofNat 16 n

end Sys2Proof
end

