-- ==== Sys2Proof/Config.lean ====
section
/-! DEFINITION. The configuration parameters of spec/00_scope.md R9, their defaults, the fixed sizes of R8 that
more than one file uses, and the free value of the random source. -/

namespace Sys2Proof

/-- `ADDR_POLICY` (R9, R52): what an out-of-range address reaches. -/
inductive AddrPolicy where
  | clamp
  | mask
deriving DecidableEq, Repr

/-- `STACK_FAULT_POLICY` (R9, R241): what a stack diagnostic does. -/
inductive StackFaultPolicy where
  | halt
  | ignore
deriving DecidableEq, Repr

/-- `BULK_TRANSFER` (R9, R74): whether `Fx55` and `Fx65` decode. -/
inductive BulkTransfer where
  | supported
  | unsupported
deriving DecidableEq, Repr

/-- The configuration of an engine, fixed for a run (R9, R37). `RAND` is not here: it is `Config.randByte`. -/
structure Config where
  addrPolicy  : AddrPolicy
  stackPolicy : StackFaultPolicy
  bulk        : BulkTransfer
  font        : Vector Byte 80
deriving DecidableEq, Repr

/-- The default `FONT`, glyph by glyph (spec/10_state.md R34). PRESUMED by the spec itself ("from general
knowledge, not in source", D10): log 11. -/
def defaultGlyphs : List (List Byte) :=
  [[0xF0, 0x90, 0x90, 0x90, 0xF0], [0x20, 0x60, 0x20, 0x20, 0x70],
   [0xF0, 0x10, 0xF0, 0x80, 0xF0], [0xF0, 0x10, 0xF0, 0x10, 0xF0]] ++
  [[0x90, 0x90, 0xF0, 0x10, 0x10], [0xF0, 0x80, 0xF0, 0x10, 0xF0],
   [0xF0, 0x80, 0xF0, 0x90, 0xF0], [0xF0, 0x10, 0x20, 0x40, 0x40]] ++
  [[0xF0, 0x90, 0xF0, 0x90, 0xF0], [0xF0, 0x90, 0xF0, 0x10, 0xF0],
   [0xF0, 0x90, 0xF0, 0x90, 0x90], [0xE0, 0x90, 0xE0, 0x90, 0xE0]] ++
  [[0xF0, 0x80, 0x80, 0x80, 0xF0], [0xE0, 0x90, 0x90, 0x90, 0xE0],
   [0xF0, 0x80, 0xF0, 0x80, 0xF0], [0xF0, 0x80, 0xF0, 0x80, 0x80]]

/-- The default `FONT` as the 80 bytes of addresses 0x000 to 0x04F (R34). -/
def defaultFont : Vector Byte 80 := ⟨⟨defaultGlyphs.flatten⟩, rfl⟩

/-- The defaults of R9. -/
def Config.default : Config where
  addrPolicy := .clamp
  stackPolicy := .halt
  bulk := .supported
  font := defaultFont

/-- The `n`-th byte the engine draws from `RAND` (R15, R162, D22): a FREE VALUE, one for each draw, about which
nothing is known (log 2). -/
opaque Config.randByte : Nat → Byte

/-- `MEM_SIZE` (R8). -/
abbrev memSize : Nat := 0x1000

/-- `PROGRAM_BASE` and `PC_RESET` (R8). -/
abbrev programBase : Nat := 0x200

/-- `MAX_PROGRAM_BYTES` (R8, R271). -/
abbrev maxProgramBytes : Nat := 3584

/-- `STACK_DEPTH` (R8). -/
abbrev stackDepth : Nat := 16

end Sys2Proof
end

