-- ==== Sys2Proof/Syntax.lean ====
section
/-! DEFINITION. The instructions: one constructor per row of spec/opcode_table.json, in the table's order, each with
the fields the row names (spec/30_encoding.md R71, R74). The fields' types are their widths. -/

namespace Sys2Proof

/-- An instruction of R74. The comment behind a constructor is its row's pattern. -/
inductive Instr where
  | cls                                     -- 00E0
  | ret                                     -- 00EE
  | jp (nnn : BitVec 12)                    -- 1nnn
  | call (nnn : BitVec 12)                  -- 2nnn
  | seImm (x : RegId) (kk : Byte)           -- 3xkk
  | sneImm (x : RegId) (kk : Byte)          -- 4xkk
  | seReg (x y : RegId)                     -- 5xy0
  | ldImm (x : RegId) (kk : Byte)           -- 6xkk
  | addImm (x : RegId) (kk : Byte)          -- 7xkk
  | ldReg (x y : RegId)                     -- 8xy0
  | orReg (x y : RegId)                     -- 8xy1
  | andReg (x y : RegId)                    -- 8xy2
  | xorReg (x y : RegId)                    -- 8xy3
  | addReg (x y : RegId)                    -- 8xy4
  | sub (x y : RegId)                       -- 8xy5
  | shr (x : RegId)                         -- 8xy6
  | subn (x y : RegId)                      -- 8xy7
  | shl (x : RegId)                         -- 8xyE
  | sneReg (x y : RegId)                    -- 9xy0
  | ldI (nnn : BitVec 12)                   -- Annn
  | jpV0 (nnn : BitVec 12)                  -- Bnnn
  | rnd (x : RegId) (kk : Byte)             -- Cxkk
  | drw (x y : RegId) (n : Fin 16)          -- Dxyn
  | skp (x : RegId)                         -- Ex9E
  | sknp (x : RegId)                        -- ExA1
  | ldVxDt (x : RegId)                      -- Fx07
  | ldVxK (x : RegId)                       -- Fx0A
  | ldDtVx (x : RegId)                      -- Fx15
  | ldStVx (x : RegId)                      -- Fx18
  | addIVx (x : RegId)                      -- Fx1E
  | ldFVx (x : RegId)                       -- Fx29
  | ldBVx (x : RegId)                       -- Fx33
  | ldMiVx (x : RegId)                      -- Fx55
  | ldVxMi (x : RegId)                      -- Fx65
deriving DecidableEq, Repr

end Sys2Proof
end

