-- ==== Sys2Proof/WellFormed.lean ====
section
/-! DEFINITION. Well-formedness of an instruction under a configuration. The fields' types already bound `x`, `y`,
`kk`, `nnn` and `n`; what is left is that the two bulk transfers exist only where they are supported. -/

namespace Sys2Proof

/-- The rows `Fx55` and `Fx65` exist only under `BULK_TRANSFER = SUPPORTED` (spec/30_encoding.md R74, D14). -/
def Instr.wf (b : BulkTransfer) : Instr → Bool
  | .ldMiVx _ => b = .supported
  | .ldVxMi _ => b = .supported
  | .cls | .ret | .jp _ | .call _ | .seImm _ _ | .sneImm _ _ | .seReg _ _ | .ldImm _ _ | .addImm _ _
  | .ldReg _ _ | .orReg _ _ | .andReg _ _ | .xorReg _ _ | .addReg _ _ | .sub _ _ | .shr _ | .subn _ _
  | .shl _ | .sneReg _ _ | .ldI _ | .jpV0 _ | .rnd _ _ | .drw _ _ _ | .skp _ | .sknp _ | .ldVxDt _
  | .ldVxK _ | .ldDtVx _ | .ldStVx _ | .addIVx _ | .ldFVx _ | .ldBVx _ => true

end Sys2Proof
end

