-- ==== Sys2Proof/Decode.lean ====
section
/-! DEFINITION. Decode and encode (spec/30_encoding.md). The decoder is the source's two-level dispatch (R73): the
top nibble, then the sub-key of the four categories that have one. The encoder and the table of rows are written
from R71 and R74. -/

namespace Sys2Proof

/-! ### Bits, fields and byte order (R11, R71) -/

/-- `v[hi:lo]` of R11, as an unsigned number. -/
def slice (w : Word) (hi lo : Nat) : Nat := w.toNat / 2 ^ lo % 2 ^ (hi - lo + 1)

/-- `concat(a, b)` of R11: `a` in bits 15:8. -/
def concat (a b : Byte) : Word := trunc16 (a.toNat * 256 + b.toNat)

/-- The byte in bits 15:8, which lies at the lower address (R54). -/
def highByte (w : Word) : Byte := trunc8 (slice w 15 8)

/-- The byte in bits 7:0, which lies at the higher address (R54). -/
def lowByte (w : Word) : Byte := trunc8 (slice w 7 0)

/-- The category, `OPC[15:12]`. -/
def fieldTop (w : Word) : Nat := slice w 15 12

/-- The field `x`, `OPC[11:8]`. -/
def fieldX (w : Word) : RegId := Fin.ofNat 16 (slice w 11 8)

/-- The field `y`, `OPC[7:4]`. -/
def fieldY (w : Word) : RegId := Fin.ofNat 16 (slice w 7 4)

/-- The field `n`, `OPC[3:0]`. -/
def fieldN (w : Word) : Fin 16 := Fin.ofNat 16 (slice w 3 0)

/-- The field `kk`, `OPC[7:0]`. -/
def fieldKk (w : Word) : Byte := trunc8 (slice w 7 0)

/-- The field `nnn`, `OPC[11:0]`. -/
def fieldNnn (w : Word) : BitVec 12 := BitVec.ofNat 12 (slice w 11 0)

/-! ### Decode (R73, R76, R104) -/

/-- What the decoder answers: an instruction, or the rejection of a word by name. -/
inductive Decoded where
  | instr (i : Instr)
  /-- An opcode of no row (R76). -/
  | unrecognized (opc : Word)
deriving DecidableEq, Repr

/-- What the decoder over bytes answers. -/
inductive DecodedBytes where
  /-- Two bytes were taken; the rest is left. -/
  | opcode (d : Decoded) (rest : List Byte)
  /-- Fewer than two bytes were given: there is no opcode. The engine's fetch never gives so few. -/
  | truncated
deriving DecidableEq, Repr

/-- Category 0, sub-key `kk`. -/
def decode0 (w : Word) : Decoded :=
  if slice w 7 0 = 0xE0 then .instr .cls
  else if slice w 7 0 = 0xEE then .instr .ret
  else .unrecognized w

/-- Category 8, sub-key `n`. -/
def decode8 (w : Word) : Decoded :=
  if slice w 3 0 = 0x0 then .instr (.ldReg (fieldX w) (fieldY w))
  else if slice w 3 0 = 0x1 then .instr (.orReg (fieldX w) (fieldY w))
  else if slice w 3 0 = 0x2 then .instr (.andReg (fieldX w) (fieldY w))
  else if slice w 3 0 = 0x3 then .instr (.xorReg (fieldX w) (fieldY w))
  else if slice w 3 0 = 0x4 then .instr (.addReg (fieldX w) (fieldY w))
  else if slice w 3 0 = 0x5 then .instr (.sub (fieldX w) (fieldY w))
  else if slice w 3 0 = 0x6 then .instr (.shr (fieldX w))
  else if slice w 3 0 = 0x7 then .instr (.subn (fieldX w) (fieldY w))
  else if slice w 3 0 = 0xE then .instr (.shl (fieldX w))
  else .unrecognized w

/-- Category E, sub-key `kk`. -/
def decodeE (w : Word) : Decoded :=
  if slice w 7 0 = 0x9E then .instr (.skp (fieldX w))
  else if slice w 7 0 = 0xA1 then .instr (.sknp (fieldX w))
  else .unrecognized w

/-- Category F, sub-key `kk`; 0x55 and 0x65 only where bulk transfers are supported. -/
def decodeF (b : BulkTransfer) (w : Word) : Decoded :=
  if slice w 7 0 = 0x07 then .instr (.ldVxDt (fieldX w))
  else if slice w 7 0 = 0x0A then .instr (.ldVxK (fieldX w))
  else if slice w 7 0 = 0x15 then .instr (.ldDtVx (fieldX w))
  else if slice w 7 0 = 0x18 then .instr (.ldStVx (fieldX w))
  else if slice w 7 0 = 0x1E then .instr (.addIVx (fieldX w))
  else if slice w 7 0 = 0x29 then .instr (.ldFVx (fieldX w))
  else if slice w 7 0 = 0x33 then .instr (.ldBVx (fieldX w))
  else if slice w 7 0 = 0x55 ∧ b = .supported then .instr (.ldMiVx (fieldX w))
  else if slice w 7 0 = 0x65 ∧ b = .supported then .instr (.ldVxMi (fieldX w))
  else .unrecognized w

/-- `Decode(OPC)` of R104: total on 16-bit words, reading nothing but the word and `BULK_TRANSFER`. The last arm
is never reached: a top nibble is below 16. -/
def decode (b : BulkTransfer) (w : Word) : Decoded :=
  match fieldTop w with
  | 0x0 => decode0 w
  | 0x1 => .instr (.jp (fieldNnn w))
  | 0x2 => .instr (.call (fieldNnn w))
  | 0x3 => .instr (.seImm (fieldX w) (fieldKk w))
  | 0x4 => .instr (.sneImm (fieldX w) (fieldKk w))
  | 0x5 => .instr (.seReg (fieldX w) (fieldY w))
  | 0x6 => .instr (.ldImm (fieldX w) (fieldKk w))
  | 0x7 => .instr (.addImm (fieldX w) (fieldKk w))
  | 0x8 => decode8 w
  | 0x9 => .instr (.sneReg (fieldX w) (fieldY w))
  | 0xA => .instr (.ldI (fieldNnn w))
  | 0xB => .instr (.jpV0 (fieldNnn w))
  | 0xC => .instr (.rnd (fieldX w) (fieldKk w))
  | 0xD => .instr (.drw (fieldX w) (fieldY w) (fieldN w))
  | 0xE => decodeE w
  | 0xF => decodeF b w
  | _ => .unrecognized w

/-- The decoder over bytes: it takes exactly two, high byte first (R54, R70), and answers with the rest. -/
def decodeBytes (b : BulkTransfer) : List Byte → DecodedBytes
  | hi :: lo :: rest => .opcode (decode b (concat hi lo)) rest
  | _ => .truncated

/-! ### Encode (R71, R74) -/

/-- A word of the `nnn` form. -/
def wordNnn (top : Nat) (nnn : BitVec 12) : Word := trunc16 (top * 0x1000 + nnn.toNat)

/-- A word of the `xkk` form; also the `x` form, whose `kk` is its sub-key. -/
def wordXkk (top : Nat) (x : RegId) (kk : Byte) : Word := trunc16 (top * 0x1000 + x.val * 0x100 + kk.toNat)

/-- A word of the `xyn` form; also the `xy` form, whose `n` is its sub-key. -/
def wordXyn (top : Nat) (x y n : Fin 16) : Word :=
  trunc16 (top * 0x1000 + x.val * 0x100 + y.val * 0x10 + n.val)

/-- The word of an instruction, from the rows of R74. Bits that decode ignores (R75) are written as 0 (log 17). -/
def encode : Instr → Word
  | .cls => wordXkk 0x0 0 0xE0
  | .ret => wordXkk 0x0 0 0xEE
  | .jp nnn => wordNnn 0x1 nnn
  | .call nnn => wordNnn 0x2 nnn
  | .seImm x kk => wordXkk 0x3 x kk
  | .sneImm x kk => wordXkk 0x4 x kk
  | .seReg x y => wordXyn 0x5 x y 0x0
  | .ldImm x kk => wordXkk 0x6 x kk
  | .addImm x kk => wordXkk 0x7 x kk
  | .ldReg x y => wordXyn 0x8 x y 0x0
  | .orReg x y => wordXyn 0x8 x y 0x1
  | .andReg x y => wordXyn 0x8 x y 0x2
  | .xorReg x y => wordXyn 0x8 x y 0x3
  | .addReg x y => wordXyn 0x8 x y 0x4
  | .sub x y => wordXyn 0x8 x y 0x5
  | .shr x => wordXyn 0x8 x 0 0x6
  | .subn x y => wordXyn 0x8 x y 0x7
  | .shl x => wordXyn 0x8 x 0 0xE
  | .sneReg x y => wordXyn 0x9 x y 0x0
  | .ldI nnn => wordNnn 0xA nnn
  | .jpV0 nnn => wordNnn 0xB nnn
  | .rnd x kk => wordXkk 0xC x kk
  | .drw x y n => wordXyn 0xD x y n
  | .skp x => wordXkk 0xE x 0x9E
  | .sknp x => wordXkk 0xE x 0xA1
  | .ldVxDt x => wordXkk 0xF x 0x07
  | .ldVxK x => wordXkk 0xF x 0x0A
  | .ldDtVx x => wordXkk 0xF x 0x15
  | .ldStVx x => wordXkk 0xF x 0x18
  | .addIVx x => wordXkk 0xF x 0x1E
  | .ldFVx x => wordXkk 0xF x 0x29
  | .ldBVx x => wordXkk 0xF x 0x33
  | .ldMiVx x => wordXkk 0xF x 0x55
  | .ldVxMi x => wordXkk 0xF x 0x65

/-- The two bytes of an instruction as they lie in memory, lowest address first (R54). -/
def encodeBytes (i : Instr) : List Byte := [highByte (encode i), lowByte (encode i)]

/-! ### The opcode map as a table (R74) -/

/-- A row of the opcode map: `OPC & mask == pattern`. -/
structure Row where
  pattern : Word
  mask    : Word
deriving DecidableEq, Repr

/-- The row of an instruction, from the match / mask column of R74. -/
def Instr.row : Instr → Row
  | .cls => ⟨0x00E0, 0xF0FF⟩
  | .ret => ⟨0x00EE, 0xF0FF⟩
  | .jp _ => ⟨0x1000, 0xF000⟩
  | .call _ => ⟨0x2000, 0xF000⟩
  | .seImm _ _ => ⟨0x3000, 0xF000⟩
  | .sneImm _ _ => ⟨0x4000, 0xF000⟩
  | .seReg _ _ => ⟨0x5000, 0xF000⟩
  | .ldImm _ _ => ⟨0x6000, 0xF000⟩
  | .addImm _ _ => ⟨0x7000, 0xF000⟩
  | .ldReg _ _ => ⟨0x8000, 0xF00F⟩
  | .orReg _ _ => ⟨0x8001, 0xF00F⟩
  | .andReg _ _ => ⟨0x8002, 0xF00F⟩
  | .xorReg _ _ => ⟨0x8003, 0xF00F⟩
  | .addReg _ _ => ⟨0x8004, 0xF00F⟩
  | .sub _ _ => ⟨0x8005, 0xF00F⟩
  | .shr _ => ⟨0x8006, 0xF00F⟩
  | .subn _ _ => ⟨0x8007, 0xF00F⟩
  | .shl _ => ⟨0x800E, 0xF00F⟩
  | .sneReg _ _ => ⟨0x9000, 0xF000⟩
  | .ldI _ => ⟨0xA000, 0xF000⟩
  | .jpV0 _ => ⟨0xB000, 0xF000⟩
  | .rnd _ _ => ⟨0xC000, 0xF000⟩
  | .drw _ _ _ => ⟨0xD000, 0xF000⟩
  | .skp _ => ⟨0xE09E, 0xF0FF⟩
  | .sknp _ => ⟨0xE0A1, 0xF0FF⟩
  | .ldVxDt _ => ⟨0xF007, 0xF0FF⟩
  | .ldVxK _ => ⟨0xF00A, 0xF0FF⟩
  | .ldDtVx _ => ⟨0xF015, 0xF0FF⟩
  | .ldStVx _ => ⟨0xF018, 0xF0FF⟩
  | .addIVx _ => ⟨0xF01E, 0xF0FF⟩
  | .ldFVx _ => ⟨0xF029, 0xF0FF⟩
  | .ldBVx _ => ⟨0xF033, 0xF0FF⟩
  | .ldMiVx _ => ⟨0xF055, 0xF0FF⟩
  | .ldVxMi _ => ⟨0xF065, 0xF0FF⟩

/-- The fields an opcode carries (R71), by the form of the instruction: the row of `i` names them, and the
instruction holds exactly them. -/
def Instr.fieldsOf (w : Word) : Instr → Prop
  | .cls | .ret => True
  | .jp nnn | .call nnn | .ldI nnn | .jpV0 nnn => nnn = fieldNnn w
  | .seImm x kk | .sneImm x kk | .ldImm x kk | .addImm x kk | .rnd x kk => x = fieldX w ∧ kk = fieldKk w
  | .seReg x y | .ldReg x y | .orReg x y | .andReg x y | .xorReg x y | .addReg x y | .sub x y | .subn x y
  | .sneReg x y => x = fieldX w ∧ y = fieldY w
  | .drw x y n => x = fieldX w ∧ y = fieldY w ∧ n = fieldN w
  | .shr x | .shl x | .skp x | .sknp x | .ldVxDt x | .ldVxK x | .ldDtVx x | .ldStVx x | .addIVx x | .ldFVx x
  | .ldBVx x | .ldMiVx x | .ldVxMi x => x = fieldX w

/-! ### The host's view of the decoder -/

/-- The instruction the decoder reads, as an option. -/
def DecodedBytes.instr? : DecodedBytes → Option Instr
  | .opcode (.instr i) _ => some i
  | .opcode (.unrecognized _) _ => none
  | .truncated => none

/-- The word of an opcode-table row's bits: bit 0 is the opcode's least significant bit; bits from `nbits` up are 0. -/
def tableWord (nbits w : Nat) : Word := trunc16 (w % 2 ^ nbits)

/-- What the decoder reads from the bytes of a table row's word, laid out high byte first, under the default
`BULK_TRANSFER` (log 9). -/
def decodeTableWord (nbits w : Nat) : Option Instr :=
  (decodeBytes Config.default.bulk [highByte (tableWord nbits w), lowByte (tableWord nbits w)]).instr?

end Sys2Proof
end

