-- ==== Sys2Proof/Machine/State.lean ====
section
/-! DEFINITION. The engine's state (spec/10_state.md), the records of the diagnostic channel (spec/60_exceptions.md
R240), the reasons a step can stop, and the state after `initialize([])` (R41). -/

namespace Sys2Proof.Machine

/-- The engine has no fault: every error of the spec is a diagnostic in a next state (R240, R245; log 22). No
constructor, so no step can end in one. -/
inductive Fault where
deriving DecidableEq, Repr

/-- Why the model gives no meaning. No instruction and no step is refused; the last two are answers to host actions
that the spec puts outside itself. -/
inductive Refusal where
  /-- Raised by `exec` for an instruction that has no meaning yet; safe. No arm of this model raises it. -/
  | notModelled (mnemonic : String)
  /-- Raised by the `INIT` port for an image of more than 3584 bytes (R271, D23); safe: nothing is claimed. -/
  | imageTooLong
  /-- Raised by the `KEY_IN` port for a key index above 15 (R252, D26); safe: nothing is claimed. -/
  | keyIndexOutOfRange
deriving DecidableEq, Repr

/-- A record `(kind, info)` of the diagnostic list `DIAG` (R39, R240). -/
inductive Diag where
  | decodeFailure (opc : Word)
  | stackOverflow (pc : Word)
  | stackUnderflow (pc : Word)
  /-- The info is the unbounded address (R52). -/
  | addressOutOfRange (addr : Nat)
deriving DecidableEq, Repr

/-- The memory, as the list of the bytes that differ from what `initialize` leaves before it loads an image: the
font and zeros (R41, log 5). Its reads and writes, and its canonical form, are in Machine/Memory.lean. -/
abbrev Memory := List Host.Cell

/-- The display buffer: 32 rows of 64 pixels (R29). -/
abbrev Fb := Vector (Vector Bool 64) 32

/-- Everything the spec gives the machine (the list of INVENTORY.md). -/
structure State where
  /-- `V0` to `VF` (R20). -/
  v       : Vector Byte 16
  /-- The index register `I` (R22). -/
  i       : Word
  /-- The program counter (R23). -/
  pc      : Word
  /-- The number of stack entries in use (R25). -/
  sp      : Fin 17
  /-- The call stack's entries (R25). -/
  stack   : Vector Word 16
  /-- The delay timer (R27). -/
  dt      : Byte
  /-- The sound timer (R27). -/
  st      : Byte
  /-- The tone latch (R28). -/
  tone    : Bool
  /-- The display buffer (R29). -/
  fb      : Fb
  /-- The redraw flag (R30). -/
  redraw  : Bool
  /-- The input state register (R31); `true` is pressed. -/
  key     : Vector Bool 16
  /-- The engine is halted (R32). -/
  halted  : Bool
  /-- The engine waits for a key (R33). -/
  keywait : Bool
  /-- The memory (R34, R50). -/
  mem     : Memory
  /-- The diagnostics of the current or last cycle, in order (R39, R243; log 4). -/
  diag    : List Diag
  /-- The opcode latch (R35; log 3). -/
  opc     : Word
  /-- The model's own: how many bytes were drawn from `RAND` (log 2). -/
  draws   : Nat
  /-- The configuration, fixed for a run (R9, R37; log 1). -/
  cfg     : Config
deriving DecidableEq, Repr

/-- The state after `initialize([])` (R41, R270) under the configuration `cfg`, with `n` bytes drawn so far. -/
def State.cleared (cfg : Config) (n : Nat) : State where
  v := Vector.replicate 16 0
  i := 0
  pc := trunc16 programBase
  sp := 0
  stack := Vector.replicate 16 0
  dt := 0
  st := 0
  tone := false
  fb := Vector.replicate 32 (Vector.replicate 64 false)
  redraw := false
  key := Vector.replicate 16 false
  halted := false
  keywait := false
  mem := []
  diag := []
  opc := 0
  draws := n
  cfg := cfg

/-- The machine right after reset: `initialize([])` under the default parameters (R9, R41; log 6). -/
def State.reset : State := State.cleared Config.default 0

end Sys2Proof.Machine
end

