-- ==== Sys2Proof/Machine/Ops.lean ====
section
/-! DEFINITION. The named operations over registers, memory, call stack, diagnostics, timers and `pc` that the
meanings and the step are written with (spec/10_state.md, spec/20_memory.md, spec/40_engine.md,
spec/60_exceptions.md). -/

namespace Sys2Proof.Machine

/-! ### General registers (R20) -/

/-- `V[x]`. -/
def State.reg (s : State) (x : RegId) : Byte := s.v[x]

/-- `V[x] <- b`. -/
def State.setReg (s : State) (x : RegId) (b : Byte) : State := { s with v := s.v.set x.val b x.isLt }

/-- `V[x] <- b`, then `VF <- f`: the flag is written last (R21, R150, D7). -/
def State.setRegFlag (s : State) (x : RegId) (b f : Byte) : State := (s.setReg x b).setReg VF f

/-- `I <- w`. -/
def State.setI (s : State) (w : Word) : State := { s with i := w }

/-! ### Diagnostics (R14, R39) -/

/-- `raise Diag(d)`: append a record to the cycle's list. -/
def State.raise (s : State) (d : Diag) : State := { s with diag := s.diag ++ [d] }

/-- The numeric code of a diagnostic's kind (R240). -/
def Diag.code : Diag → Nat
  | .decodeFailure _ => 1
  | .stackOverflow _ => 2
  | .stackUnderflow _ => 3
  | .addressOutOfRange _ => 4

/-- The info recorded with a diagnostic (R240). -/
def Diag.info : Diag → Nat
  | .decodeFailure opc => opc.toNat
  | .stackOverflow pc => pc.toNat
  | .stackUnderflow pc => pc.toNat
  | .addressOutOfRange a => a

/-- Whether a diagnostic is fatal under a stack policy (R240, R241). -/
def Diag.fatal (p : StackFaultPolicy) : Diag → Bool
  | .decodeFailure _ => false
  | .stackOverflow _ => p = .halt
  | .stackUnderflow _ => p = .halt
  | .addressOutOfRange _ => false

/-! ### Memory (R52, R53) -/

/-- The address `Bound(a)` reaches (R52). -/
def boundAddr (p : AddrPolicy) (a : Nat) : Nat :=
  if a < memSize then a
  else match p with
    | .clamp => 0xFFF
    | .mask => a % memSize

/-- The diagnostic `Bound(a)` raises (R52): one when `a` is above 0xFFF. -/
def State.noteAddr (s : State) (a : Nat) : State :=
  if a < memSize then s else s.raise (.addressOutOfRange a)

/-- The byte `MEM[a]` at a bounded address. -/
def State.byteAt (s : State) (a : Nat) : Byte := Memory.read s.cfg.font s.mem a

/-- The address an unbounded address reaches in this state. -/
def State.bound (s : State) (a : Nat) : Nat := boundAddr s.cfg.addrPolicy a

/-- `MemRead(a, 1)` (R53): the byte, and the state with the diagnostic. -/
def State.memRead (s : State) (a : Nat) : Byte × State := (s.byteAt (s.bound a), s.noteAddr a)

/-- `MemWrite(a, 1, b)` (R53). -/
def State.memWrite (s : State) (a : Nat) (b : Byte) : State :=
  { s.noteAddr a with mem := Memory.write s.cfg.font s.mem (s.bound a) b }

/-! ### Advance of pc (R105, R106) -/

/-- The outcome of an instruction (R105). -/
inductive Flow where
  | next
  | skip
  | set (target : Nat)
  | hold
  | fatal
deriving DecidableEq, Repr

/-- `Advance(out)` (R106); a fatal outcome sets `HALTED` and leaves `pc` (R100, R242). -/
def State.advance (s : State) : Flow → State
  | .next => { s with pc := trunc16 (s.pc.toNat + 2) }
  | .skip => { s with pc := trunc16 (s.pc.toNat + 4) }
  | .set t => { s with pc := trunc16 t }
  | .hold => s
  | .fatal => { s with halted := true }

/-- An instruction ends: its effect `s`, then the advance. -/
def done (f : Flow) (s : State) : Host.Outcome State Fault Refusal := .next (s.advance f)

/-! ### Call stack (R25, R26) -/

/-- `Push(w)`, or nothing when the stack is full. -/
def State.push (s : State) (w : Word) : Option State :=
  if h : s.sp.val < stackDepth then
    some { s with stack := s.stack.set s.sp.val w h, sp := ⟨s.sp.val + 1, Nat.succ_lt_succ h⟩ }
  else none

/-- `Pop()`: the value and the state after it, or nothing when the stack is empty. -/
def State.pop (s : State) : Option (Word × State) :=
  if h : 0 < s.sp.val then
    some (s.stack[s.sp.val - 1]'(by omega), { s with sp := ⟨s.sp.val - 1, by omega⟩ })
  else none

/-! ### Taking an error (R241, R242, R245)

The engine has no trap entry: it saves nothing and goes to no handler (R245). A stack diagnostic is recorded; then the
cycle is fatal or goes on as a no-op, by policy. There is no return from it but `initialize` (R246), which is
`portInit` of Machine/Ports.lean. -/

/-- What a stack policy makes of a failed push or pop (R242). -/
def stackFlow : StackFaultPolicy → Flow
  | .halt => .fatal
  | .ignore => .next

/-- A failed push or pop: record it, change nothing else, and end the instruction by policy (R242). -/
def State.stackFail (s : State) (d : Diag) : State := (s.raise d).advance (stackFlow s.cfg.stackPolicy)

/-- An unrecognized opcode (R110): record it, and advance by 2. -/
def State.unrecognized (s : State) (opc : Word) : State := (s.raise (.decodeFailure opc)).advance .next

/-! ### Random draw (R15) -/

/-- `RandomByte()`: the next byte of the free source (log 2). -/
def State.drawByte (s : State) : Byte × State := (Config.randByte s.draws, { s with draws := s.draws + 1 })

/-! ### The parts of a cycle around an instruction (R100) -/

/-- `DIAG <- []`. -/
def State.clearDiag (s : State) : State := { s with diag := [] }

/-- `OPC <- Fetch16(pc)` (R54, R103): the high byte first, each byte bounded on its own. -/
def State.fetch (s : State) : State :=
  let hi := s.memRead s.pc.toNat
  let lo := hi.2.memRead (s.pc.toNat + 1)
  { lo.2 with opc := concat hi.1 lo.1 }

/-- `TimerTick()` (R108, R109). -/
def State.tick (s : State) : State :=
  let dt := if 0 < s.dt.toNat then trunc8 (s.dt.toNat - 1) else s.dt
  let st := if 0 < s.st.toNat then trunc8 (s.st.toNat - 1) else s.st
  { s with dt := dt, st := st, tone := if 0 < s.st.toNat ∧ st = 1 then true else s.tone }

/-- The end of a cycle: the tick, unless the cycle was fatal (R100, R111, R242). -/
def State.endCycle (s : State) : State := if s.halted then s else s.tick

/-- The end of a cycle, of whatever the instruction answered. -/
def endOutcome : Host.Outcome State Fault Refusal → Host.Outcome State Fault Refusal
  | .next s => .next s.endCycle
  | .fault r => .fault r
  | .refused r => .refused r

/-! ### Placing a word where the next fetch reads it -/

/-- A state that will fetch two different bytes at its next cycle: not halted, and, where clamping would make both
reads reach one byte, with `pc` moved to the program base (log 7). -/
def State.fetchable (s : State) : State :=
  if s.bound s.pc.toNat = s.bound (s.pc.toNat + 1) then
    { s with halted := false, pc := trunc16 programBase }
  else { s with halted := false }

/-- Store a byte where an access at `a` reaches, with no diagnostic. -/
def State.place (s : State) (a : Nat) (b : Byte) : State :=
  { s with mem := Memory.write s.cfg.font s.mem (s.bound a) b }

/-- Store a word where the next fetch reads it, high byte first (R54). -/
def State.placeWord (s : State) (w : Word) : State :=
  (s.place s.pc.toNat (highByte w)).place (s.pc.toNat + 1) (lowByte w)

end Sys2Proof.Machine
end

