-- ==== Sys2Proof/Machine/Operands.lean ====
section
/-! DEFINITION. The operand forms that are more than a register or an immediate taken as it is: the selected key, the
glyph address, the computed jump target, the pixel a sprite bit lands on, and the decimal digits. -/

namespace Sys2Proof.Machine

/-- The address `I + i`, unbounded (R181, R202). -/
def State.indexed (s : State) (i : Nat) : Nat := s.i.toNat + i

/-- The key that `Ex9E` and `ExA1` select: `V[x] AND 0x0F` (R223, D17). -/
def State.keySelect (s : State) (x : RegId) : RegId := Fin.ofNat 16 (s.reg x &&& 0x0F).toNat

/-- Whether key `k` is pressed (R31). -/
def State.pressed (s : State) (k : RegId) : Bool := s.key[k]

/-- The least pressed key (R226, D18). -/
def State.leastPressed (s : State) : Option Nat := s.key.toList.findIdx? id

/-- The glyph address of `Fx29`: `V[x] * 5` (R183, D16). -/
def glyphAddr (b : Byte) : Nat := b.toNat * 5

/-- The target of `Bnnn`: `nnn + V0`, unbounded (R137). -/
def jumpSum (nnn : BitVec 12) (v0 : Byte) : Nat := nnn.toNat + v0.toNat

/-- The column a sprite bit lands on, wrapping at 64 (R201). -/
def spriteCol (cx c : Nat) : Fin 64 := Fin.ofNat 64 (cx + c)

/-- The row a sprite byte lands on, wrapping at 32 (R201). -/
def spriteRow (cy r : Nat) : Fin 32 := Fin.ofNat 32 (cy + r)

/-- The sprite bit at column offset `c` of a row byte: bit 7 is the leftmost (R201, D11; log 11). -/
def spriteBit (b : Byte) (c : Nat) : Bool := b.getLsbD (7 - c)

/-- The hundreds digit of a byte (R184). -/
def hundreds (b : Byte) : Byte := trunc8 (b.toNat / 100)

/-- The tens digit of a byte (R184). -/
def tens (b : Byte) : Byte := trunc8 (b.toNat / 10 % 10)

/-- The ones digit of a byte (R184). -/
def ones (b : Byte) : Byte := trunc8 (b.toNat % 10)

end Sys2Proof.Machine
end

