-- ==== Sys2Proof/Machine/Flags.lean ====
section
/-! DEFINITION. The results and flags of the ALU and of `Fx1E`, from the operands alone (spec/42_alu.md R150 and
R157 to R161, spec/43_index_memory.md R182): exact on natural numbers, narrowed at the end. -/

namespace Sys2Proof.Machine

/-- A flag as the byte `VF` takes. -/
def flagByte (b : Bool) : Byte := if b then 1 else 0

/-- `trunc_8(a + b)` (R152, R157). -/
def aluAdd (a b : Byte) : Byte := trunc8 (a.toNat + b.toNat)

/-- The carry of `8xy4`: the sum exceeds 255 (R157). -/
def carryOut (a b : Byte) : Byte := flagByte (255 < a.toNat + b.toNat)

/-- `trunc_8(a - b + 256)` (R158, R160). -/
def aluSub (a b : Byte) : Byte := trunc8 (a.toNat + 256 - b.toNat)

/-- The flag of a subtraction `a - b`: no borrow (R158, R160). -/
def noBorrow (a b : Byte) : Byte := flagByte (b.toNat ≤ a.toNat)

/-- `a >> 1` (R159). -/
def aluShr (a : Byte) : Byte := trunc8 (a.toNat / 2)

/-- The bit `8xy6` shifts out: bit 0 (R159). -/
def shrOut (a : Byte) : Byte := flagByte (a.getLsbD 0)

/-- `trunc_8(a << 1)` (R161). -/
def aluShl (a : Byte) : Byte := trunc8 (a.toNat * 2)

/-- The bit `8xyE` shifts out: bit 7 (R161). -/
def shlOut (a : Byte) : Byte := flagByte (a.getLsbD 7)

/-- `trunc_16(I + V[x])` (R182). -/
def indexAdd (i : Word) (b : Byte) : Word := trunc16 (i.toNat + b.toNat)

/-- The flag of `Fx1E`: the unbounded sum exceeds 0xFFF (R182, D15). -/
def indexOut (i : Word) (b : Byte) : Byte := flagByte (0xFFF < i.toNat + b.toNat)

end Sys2Proof.Machine
end

