-- ==== Sys2Proof/Machine/Alu.lean ====
section
/-! DEFINITION. The meanings of the ALU instructions (spec/42_alu.md). Operands are read first; `V[x]` is written,
then `VF` where the instruction has a flag (R150). -/

namespace Sys2Proof.Machine

/-- `6xkk` LD Vx, kk (R151). -/
def execLdImm (x : RegId) (kk : Byte) (s : State) : Host.Outcome State Fault Refusal :=
  done .next (s.setReg x kk)

/-- `7xkk` ADD Vx, kk (R152): no flag. -/
def execAddImm (x : RegId) (kk : Byte) (s : State) : Host.Outcome State Fault Refusal :=
  done .next (s.setReg x (aluAdd (s.reg x) kk))

/-- `8xy0` LD Vx, Vy (R153). -/
def execLdReg (x y : RegId) (s : State) : Host.Outcome State Fault Refusal :=
  done .next (s.setReg x (s.reg y))

/-- `8xy1` OR Vx, Vy (R154). -/
def execOrReg (x y : RegId) (s : State) : Host.Outcome State Fault Refusal :=
  done .next (s.setReg x (s.reg x ||| s.reg y))

/-- `8xy2` AND Vx, Vy (R155). -/
def execAndReg (x y : RegId) (s : State) : Host.Outcome State Fault Refusal :=
  done .next (s.setReg x (s.reg x &&& s.reg y))

/-- `8xy3` XOR Vx, Vy (R156). -/
def execXorReg (x y : RegId) (s : State) : Host.Outcome State Fault Refusal :=
  done .next (s.setReg x (s.reg x ^^^ s.reg y))

/-- `8xy4` ADD Vx, Vy (R157): flag = carry. -/
def execAddReg (x y : RegId) (s : State) : Host.Outcome State Fault Refusal :=
  done .next (s.setRegFlag x (aluAdd (s.reg x) (s.reg y)) (carryOut (s.reg x) (s.reg y)))

/-- `8xy5` SUB Vx, Vy (R158): flag = no borrow. -/
def execSub (x y : RegId) (s : State) : Host.Outcome State Fault Refusal :=
  done .next (s.setRegFlag x (aluSub (s.reg x) (s.reg y)) (noBorrow (s.reg x) (s.reg y)))

/-- `8xy6` SHR Vx (R159): flag = the bit shifted out. -/
def execShr (x : RegId) (s : State) : Host.Outcome State Fault Refusal :=
  done .next (s.setRegFlag x (aluShr (s.reg x)) (shrOut (s.reg x)))

/-- `8xy7` SUBN Vx, Vy (R160): flag = no borrow of `V[y] - V[x]`. -/
def execSubn (x y : RegId) (s : State) : Host.Outcome State Fault Refusal :=
  done .next (s.setRegFlag x (aluSub (s.reg y) (s.reg x)) (noBorrow (s.reg y) (s.reg x)))

/-- `8xyE` SHL Vx (R161): flag = the bit shifted out. -/
def execShl (x : RegId) (s : State) : Host.Outcome State Fault Refusal :=
  done .next (s.setRegFlag x (aluShl (s.reg x)) (shlOut (s.reg x)))

/-- `Cxkk` RND Vx, kk (R162): one draw, under the mask. -/
def execRnd (x : RegId) (kk : Byte) (s : State) : Host.Outcome State Fault Refusal :=
  done .next (s.drawByte.2.setReg x (s.drawByte.1 &&& kk))

end Sys2Proof.Machine
end

