-- ==== Sys2Proof/Machine/Control.lean ====
section
/-! DEFINITION. The meanings of the control-flow instructions (spec/41_control_flow.md). -/

namespace Sys2Proof.Machine

/-- `00EE` RET (R130): the popped value is the address of the call, so the return adds 2. -/
def execRet (s : State) : Host.Outcome State Fault Refusal :=
  match s.pop with
  | some (t, s') => done (.set (t.toNat + 2)) s'
  | none => .next (s.stackFail (.stackUnderflow s.pc))

/-- `1nnn` JP (R131). -/
def execJp (nnn : BitVec 12) (s : State) : Host.Outcome State Fault Refusal :=
  done (.set nnn.toNat) s

/-- `2nnn` CALL (R132): it pushes its own address. -/
def execCall (nnn : BitVec 12) (s : State) : Host.Outcome State Fault Refusal :=
  match s.push s.pc with
  | some s' => done (.set nnn.toNat) s'
  | none => .next (s.stackFail (.stackOverflow s.pc))

/-- Skip or not (R107). -/
def skipIf (c : Bool) : Flow := if c then .skip else .next

/-- `3xkk` SE Vx, kk (R133). -/
def execSeImm (x : RegId) (kk : Byte) (s : State) : Host.Outcome State Fault Refusal :=
  done (skipIf (s.reg x = kk)) s

/-- `4xkk` SNE Vx, kk (R134). -/
def execSneImm (x : RegId) (kk : Byte) (s : State) : Host.Outcome State Fault Refusal :=
  done (skipIf (s.reg x ≠ kk)) s

/-- `5xy0` SE Vx, Vy (R135). -/
def execSeReg (x y : RegId) (s : State) : Host.Outcome State Fault Refusal :=
  done (skipIf (s.reg x = s.reg y)) s

/-- `9xy0` SNE Vx, Vy (R136). -/
def execSneReg (x y : RegId) (s : State) : Host.Outcome State Fault Refusal :=
  done (skipIf (s.reg x ≠ s.reg y)) s

/-- `Bnnn` JP V0, nnn (R137): always `V0`, and not reduced to 12 bits. -/
def execJpV0 (nnn : BitVec 12) (s : State) : Host.Outcome State Fault Refusal :=
  done (.set (jumpSum nnn (s.reg 0))) s

end Sys2Proof.Machine
end

