-- ==== Sys2Proof/Machine/Display.lean ====
section
/-! DEFINITION. The display operations and the meanings of `00E0` and `Dxyn` (spec/44_display.md). -/

namespace Sys2Proof.Machine

/-- The pixel of row `r` and column `c`. -/
def Fb.get (fb : Fb) (r : Fin 32) (c : Fin 64) : Bool := fb[r][c]

/-- The buffer with one pixel complemented. -/
def Fb.flip (fb : Fb) (r : Fin 32) (c : Fin 64) : Fb :=
  fb.set r.val (fb[r].set c.val (!fb[r][c]) c.isLt) r.isLt

/-- The clear buffer. -/
def Fb.blank : Fb := Vector.replicate 32 (Vector.replicate 64 false)

/-- `FB[r][c]` (R29). -/
def State.pixel (s : State) (r : Fin 32) (c : Fin 64) : Bool := s.fb.get r c

/-- The first `n` bits of a sprite byte XORed onto a row, from column `cx` on; the Boolean is `hit` (R202). -/
def drawBits (b : Byte) (row : Fin 32) (cx : Nat) (p : Fb × Bool) : Nat → Fb × Bool
  | 0 => p
  | c + 1 =>
    let q := drawBits b row cx p c
    if spriteBit b c then
      (Fb.flip q.1 row (spriteCol cx c), q.2 || Fb.get q.1 row (spriteCol cx c))
    else q

/-- The first `n` rows of the sprite at `I`, drawn at column `cx` and row `cy`; the Boolean is `hit` (R202). -/
def State.drawRows (s : State) (cx cy : Nat) : Nat → State × Bool
  | 0 => (s, false)
  | r + 1 =>
    let q := s.drawRows cx cy r
    let b := q.1.memRead (s.indexed r)
    let d := drawBits b.1 (spriteRow cy r) cx (b.2.fb, q.2) 8
    ({ b.2 with fb := d.1 }, d.2)

/-- `REDRAW <- 1` (R30). -/
def State.markRedraw (s : State) : State := { s with redraw := true }

/-- `00E0` CLS (R200). -/
def execCls (s : State) : Host.Outcome State Fault Refusal :=
  done .next { s with fb := Fb.blank, redraw := true }

/-- `Dxyn` DRW Vx, Vy, n (R202). -/
def execDrw (x y : RegId) (n : Fin 16) (s : State) : Host.Outcome State Fault Refusal :=
  let q := s.drawRows (s.reg x).toNat (s.reg y).toNat n.val
  done .next (q.1.markRedraw.setReg VF (flagByte q.2))

end Sys2Proof.Machine
end

