-- ==== Sys2Proof/Machine/Index.lean ====
section
/-! DEFINITION. The meanings of the index-register and memory-transfer instructions (spec/43_index_memory.md). No
transfer changes `I` (R181). -/

namespace Sys2Proof.Machine

/-- `Annn` LD I, nnn (R180). -/
def execLdI (nnn : BitVec 12) (s : State) : Host.Outcome State Fault Refusal :=
  done .next (s.setI (trunc16 nnn.toNat))

/-- `Fx1E` ADD I, Vx (R182): flag = out of range. -/
def execAddIVx (x : RegId) (s : State) : Host.Outcome State Fault Refusal :=
  done .next ((s.setI (indexAdd s.i (s.reg x))).setReg VF (indexOut s.i (s.reg x)))

/-- `Fx29` LD F, Vx (R183). -/
def execLdFVx (x : RegId) (s : State) : Host.Outcome State Fault Refusal :=
  done .next (s.setI (trunc16 (glyphAddr (s.reg x))))

/-- `Fx33` LD B, Vx (R184): hundreds, tens, ones, in that order. -/
def execLdBVx (x : RegId) (s : State) : Host.Outcome State Fault Refusal :=
  done .next (((s.memWrite (s.indexed 0) (hundreds (s.reg x))).memWrite (s.indexed 1) (tens (s.reg x))).memWrite
    (s.indexed 2) (ones (s.reg x)))

/-- The registers `V[0]` to `V[n - 1]` stored at `I`, ascending (R185). -/
def State.storeRegs (s : State) : Nat → State
  | 0 => s
  | n + 1 => (s.storeRegs n).memWrite (s.indexed n) (s.reg (Fin.ofNat 16 n))

/-- `Fx55` LD [I], Vx (R185). -/
def execLdMiVx (x : RegId) (s : State) : Host.Outcome State Fault Refusal :=
  done .next (s.storeRegs (x.val + 1))

/-- The registers `V[0]` to `V[n - 1]` loaded from `I`, ascending (R186). -/
def State.loadRegs (s : State) : Nat → State
  | 0 => s
  | n + 1 =>
    let b := (s.loadRegs n).memRead (s.indexed n)
    b.2.setReg (Fin.ofNat 16 n) b.1

/-- `Fx65` LD Vx, [I] (R186). -/
def execLdVxMi (x : RegId) (s : State) : Host.Outcome State Fault Refusal :=
  done .next (s.loadRegs (x.val + 1))

end Sys2Proof.Machine
end

