-- ==== Sys2Proof/Machine/Input.lean ====
section
/-! DEFINITION. The meanings of the timer and key instructions (spec/45_timers_input.md). The timer tick is not
theirs: it ends every cycle (R111). -/

namespace Sys2Proof.Machine

/-- `Fx07` LD Vx, DT (R220). -/
def execLdVxDt (x : RegId) (s : State) : Host.Outcome State Fault Refusal :=
  done .next (s.setReg x s.dt)

/-- `Fx15` LD DT, Vx (R221). -/
def execLdDtVx (x : RegId) (s : State) : Host.Outcome State Fault Refusal :=
  done .next { s with dt := s.reg x }

/-- `Fx18` LD ST, Vx (R222). -/
def execLdStVx (x : RegId) (s : State) : Host.Outcome State Fault Refusal :=
  done .next { s with st := s.reg x }

/-- `Ex9E` SKP Vx (R224). -/
def execSkp (x : RegId) (s : State) : Host.Outcome State Fault Refusal :=
  done (skipIf (s.pressed (s.keySelect x))) s

/-- `ExA1` SKNP Vx (R225). -/
def execSknp (x : RegId) (s : State) : Host.Outcome State Fault Refusal :=
  done (skipIf (!s.pressed (s.keySelect x))) s

/-- `Fx0A` LD Vx, K (R226): take the least pressed key, or hold `pc`. -/
def execLdVxK (x : RegId) (s : State) : Host.Outcome State Fault Refusal :=
  match s.leastPressed with
  | some k => done .next { s.setReg x (trunc8 k) with keywait := false }
  | none => done .hold { s with keywait := true }

end Sys2Proof.Machine
end

