-- ==== Sys2Proof/Machine/Step.lean ====
section
/-! DEFINITION. One cycle of the engine (spec/40_engine.md R100, R101), and how a word is placed where the next cycle
fetches it. -/

namespace Sys2Proof.Machine

/-- `runCycle()` (R100): a halted engine does nothing and reports nothing (R101); otherwise fetch, decode, execute,
advance and tick. An unrecognized opcode is a logged no-op (R110). -/
def step (s : State) : Host.Outcome State Fault Refusal :=
  if s.halted then .next s.clearDiag
  else
    match decode s.cfg.bulk s.clearDiag.fetch.opc with
    | .instr i => endOutcome (exec i s.clearDiag.fetch)
    | .unrecognized w => .next (s.clearDiag.fetch.unrecognized w).endCycle

/-- The state with an opcode-table word stored where the next step fetches (log 6, log 7). -/
def State.withFetchWord (s : State) (nbits w : Nat) : State := s.fetchable.placeWord (tableWord nbits w)

end Sys2Proof.Machine
end

