-- ==== Sys2Proof/Machine/Ports.lean ====
section
/-! DEFINITION. The host's ports (spec/10_state.md R40), each a transaction between two cycles (spec/60_exceptions.md
R252). `RAND_IN` is the free value of the draw (log 2). -/

namespace Sys2Proof.Machine

/-- `INIT`: `initialize(P)` (R270). The configuration stays, and so does the count of drawn bytes, so that later draws
are as free as earlier ones. An image of more than 3584 bytes is outside the spec (R271). -/
def portInit (image : List Byte) (s : State) : Host.Outcome State Fault Refusal :=
  if image.length ≤ maxProgramBytes then
    .next { State.cleared s.cfg s.draws with mem := Memory.load s.cfg.font [] programBase image }
  else .refused .imageTooLong

/-- `STEP`: `runCycle()`. -/
def portStep (s : State) : Host.Outcome State Fault Refusal := step s

/-- `DIAG_OUT`: what the last cycle reported. -/
def portDiagOut (s : State) : List (Nat × Nat) := s.diag.map (fun d => (d.code, d.info))

/-- `FB_OUT`: `getDisplayBuffer()`. -/
def portFbOut (s : State) : Fb := s.fb

/-- `REDRAW_ACK`: `consumeRedrawFlag()`. -/
def portRedrawAck (s : State) : Bool × State := (s.redraw, { s with redraw := false })

/-- `KEY_IN`: `setKeyState(k, pressed)`. A key index above 15 is outside the spec (R252). -/
def portKeyIn (k : Nat) (pressed : Bool) (s : State) : Host.Outcome State Fault Refusal :=
  if h : k < 16 then .next { s with key := s.key.set k pressed h } else .refused .keyIndexOutOfRange

/-- `ST_OUT`: `getSoundTimerValue()`. -/
def portStOut (s : State) : Byte := s.st

/-- `TONE_ACK`: `isTonePending()`. -/
def portToneAck (s : State) : Bool × State := (s.tone, { s with tone := false })

/-- `HALTED_OUT`. -/
def portHaltedOut (s : State) : Bool := s.halted

/-- `KEYWAIT_OUT`. -/
def portKeywaitOut (s : State) : Bool := s.keywait

/-- What the host can do to the engine between two cycles, or to make it run one. The ports that only read change
nothing and are not listed. -/
inductive HostAction where
  | init (image : List Byte)
  | step
  | redrawAck
  | keyIn (k : Nat) (pressed : Bool)
  | toneAck
deriving DecidableEq, Repr

/-- The engine under a host action. -/
def hostAct (a : HostAction) (s : State) : Host.Outcome State Fault Refusal :=
  match a with
  | .init image => portInit image s
  | .step => portStep s
  | .redrawAck => .next (portRedrawAck s).2
  | .keyIn k pressed => portKeyIn k pressed s
  | .toneAck => .next (portToneAck s).2

end Sys2Proof.Machine
end

