-- ==== Sys2Proof/Safety.lean ====
section
/-! DEFINITION. What the claims speak of: which parts of the state an instruction may change (frames), the invariants,
what a safe cycle is, and the diagnostics a run of memory accesses raises. -/

namespace Sys2Proof

/-! ### Who may touch what -/

/-- The instructions that reach memory (spec/20_memory.md R50). -/
def Instr.reachesMemory : Instr → Bool
  | .drw _ _ _ | .ldBVx _ | .ldMiVx _ | .ldVxMi _ => true
  | _ => false

/-- The instructions that read the key state (spec/10_state.md R31). -/
def Instr.readsKeys : Instr → Bool
  | .skp _ | .sknp _ | .ldVxK _ => true
  | _ => false

/-- The instructions that write `VF` as a flag (spec/10_state.md R21). -/
def Instr.writesFlag : Instr → Bool
  | .addReg _ _ | .sub _ _ | .shr _ | .subn _ _ | .shl _ | .drw _ _ _ | .addIVx _ => true
  | _ => false

/-- The instructions whose rule writes `V[x]` for the `x` they name. -/
def Instr.writesX (r : RegId) : Instr → Bool
  | .ldImm x _ | .addImm x _ | .ldReg x _ | .orReg x _ | .andReg x _ | .xorReg x _ | .addReg x _ | .sub x _ | .shr x
  | .subn x _ | .shl x | .rnd x _ | .ldVxDt x | .ldVxK x => r = x
  | .ldVxMi x => r ≤ x
  | _ => false

namespace Machine

/-! ### Frames -/

/-- The parts of the state. -/
inductive Part where
  | regs | index | pc | callStack | delay | sound | tone | display | redraw | keys | halted | keywait | memory
  | diag | latch | draws | config
deriving DecidableEq, Repr

/-- A part reads the same in two states. Registers and memory are compared by reading each of them. -/
def Part.same (s t : State) : Part → Prop
  | .regs => ∀ r, t.reg r = s.reg r
  | .index => t.i = s.i
  | .pc => t.pc = s.pc
  | .callStack => t.sp = s.sp ∧ t.stack = s.stack
  | .delay => t.dt = s.dt
  | .sound => t.st = s.st
  | .tone => t.tone = s.tone
  | .display => t.fb = s.fb
  | .redraw => t.redraw = s.redraw
  | .keys => t.key = s.key
  | .halted => t.halted = s.halted
  | .keywait => t.keywait = s.keywait
  | .memory => ∀ a, t.byteAt a = s.byteAt a
  | .diag => t.diag = s.diag
  | .latch => t.opc = s.opc
  | .draws => t.draws = s.draws
  | .config => t.cfg = s.cfg

/-- Every part outside `ps` is unchanged. -/
def ChangesOnly (ps : List Part) (s t : State) : Prop := ∀ p : Part, p ∉ ps → p.same s t

/-- Every register but those of `xs` is unchanged. -/
def OtherRegs (xs : List RegId) (s t : State) : Prop := ∀ r : RegId, r ∉ xs → t.reg r = s.reg r

/-- `pc` advanced by `k` (R106), with the wrap at 16 bits that the spec calls its own choice (D3). -/
def Advanced (k : Nat) (s t : State) : Prop := t.pc.toNat = (s.pc.toNat + k) % 65536

/-- `pc` advanced by `k` (R105), said only where the sum fits in 16 bits, so that nothing rests on the wrap. -/
def StepsBy (k : Nat) (s t : State) : Prop := s.pc.toNat + k ≤ 0xFFFF → t.pc.toNat = s.pc.toNat + k

/-- Nothing but the registers of `xs` changes, and `pc` advances by 2: the frame of an instruction that writes
registers. -/
def WritesRegs (xs : List RegId) (s t : State) : Prop :=
  OtherRegs xs s t ∧ Advanced 2 s t ∧ ChangesOnly [.regs, .pc] s t

/-- Every byte of memory but those at the addresses of `as` is unchanged. -/
def OtherBytes (as : List Nat) (s t : State) : Prop := ∀ a : Nat, a ∉ as → t.byteAt a = s.byteAt a

/-! ### Encodings -/

/-- Every word of a row (R74) decodes to the instruction that `i` makes of its fields. -/
def RowDecodes (b : BulkTransfer) (pattern mask : Word) (i : Word → Instr) : Prop :=
  ∀ w : Word, w &&& mask = pattern → decode b w = .instr (i w)

/-! ### Diagnostics of memory accesses -/

/-- The diagnostics that accesses at these unbounded addresses raise, in order (R52, R243). -/
def addrDiags (as : List Nat) : List Diag :=
  (as.filter (fun a => memSize ≤ a)).map Diag.addressOutOfRange

/-- The unbounded addresses `I`, `I + 1`, …, `n` of them. -/
def State.span (s : State) (n : Nat) : List Nat := (List.range n).map s.indexed

/-! ### Sprites -/

/-- The `c`-th pixel, from the left, of the `r`-th row of the sprite at `I` is set (R201; bit 7 is the leftmost). -/
def State.spritePixel (s : State) (r c : Nat) : Prop :=
  (s.byteAt (s.bound (s.i.toNat + r))).toNat / 2 ^ (7 - c) % 2 = 1

/-- A set pixel of the `n`-row sprite drawn at column `cx` and row `cy` lands on the buffer pixel `(R, C)`, each
coordinate wrapping on its own (R201). -/
def State.spriteCovers (s : State) (cx cy n : Nat) (R : Fin 32) (C : Fin 64) : Prop :=
  ∃ r c, r < n ∧ c < 8 ∧ s.spritePixel r c ∧ (cy + r) % 32 = R.val ∧ (cx + c) % 64 = C.val

/-! ### Invariants -/

/-- A record is an address diagnostic, and of an address that is out of range. -/
def Diag.IsAddress : Diag → Prop
  | .addressOutOfRange a => memSize ≤ a
  | .decodeFailure _ => False
  | .stackOverflow _ => False
  | .stackUnderflow _ => False

/-- The shape of a cycle's diagnostic list (R243): address diagnostics, then at most one record of another kind. -/
def DiagShape (l : List Diag) : Prop :=
  ∃ as d, l = as ++ d ∧ (∀ r ∈ as, r.IsAddress) ∧ d.length ≤ 1

/-- What every cycle and every host action keeps: the memory in its canonical form, the diagnostic list in the shape
of R243, and a halted engine only under the policy `HALT` (R32). -/
structure State.Inv (s : State) : Prop where
  memory : Memory.wf s.cfg.font s.mem
  diag : DiagShape s.diag
  halted : s.halted = true → s.cfg.stackPolicy = .halt

/-- The word the next cycle fetches (R54). -/
def State.fetchWord (s : State) : Word :=
  concat (s.byteAt (s.bound s.pc.toNat)) (s.byteAt (s.bound (s.pc.toNat + 1)))

/-- What the wait-for-key sub-state means (R33): an engine whose `KEYWAIT` is set will execute `Fx0A` next. -/
def State.WaitInv (s : State) : Prop :=
  s.keywait = true → ∃ x, decode s.cfg.bulk s.fetchWord = .instr (.ldVxK x)

/-! ### Safe cycles -/

/-- A cycle completes without a halt and reports nothing. -/
def SafeCycle (s : State) : Prop := ∃ t, step s = .next t ∧ t.halted = false ∧ t.diag = []

end Machine

end Sys2Proof
end

