-- ==== Sys2Proof/Certificates/Slice0/Obligations.lean ====
section
/-! DEFINITION. The statements about the engine. Each docstring names the rule of spec/ it formalises; where a clause
rests on one of the spec's own decisions (D<n> of 92_eei_decisions.md) or on a choice of this model (log <n>), it says
so. -/

open Sys2Proof Sys2Proof.Machine

/-! ### Reset -/

/-- R41: the value of every piece of state after `initialize(P)`, from any state, for any image and any `FONT`. -/
def Obligations.InitGivesEveryPieceItsValue : Prop :=
  ∀ (s : State) (P : List Byte), P.length ≤ 3584 → ∃ t, portInit P s = .next t ∧
    (∀ a (h : a < 80), t.byteAt a = s.cfg.font[a]) ∧
    (∀ a, 0x050 ≤ a → a < 0x200 → t.byteAt a = 0) ∧
    (∀ j (h : j < P.length), t.byteAt (0x200 + j) = P[j]) ∧
    (∀ a, 0x200 + P.length ≤ a → a ≤ 0xFFF → t.byteAt a = 0) ∧
    (∀ r, t.reg r = 0) ∧ t.i = 0 ∧ t.pc = 0x0200 ∧ t.sp = 0 ∧ (∀ j : Fin 16, t.stack[j] = 0) ∧
    t.dt = 0 ∧ t.st = 0 ∧ (∀ r c, t.pixel r c = false) ∧ (∀ k : RegId, t.key[k] = false) ∧
    t.redraw = false ∧ t.tone = false ∧ t.halted = false ∧ t.keywait = false ∧ t.diag = [] ∧ t.cfg = s.cfg

/-- The reset state is what `initialize([])` leaves under the defaults of R9, which are the spec's own decisions D1, D5,
D14 and D10; that the model starts there is log 6. -/
def Obligations.ResetIsInitializeOfNothing : Prop :=
  portInit [] State.reset = .next State.reset ∧ State.reset.cfg.addrPolicy = .clamp ∧
    State.reset.cfg.stackPolicy = .halt ∧ State.reset.cfg.bulk = .supported ∧
    ∀ g : Fin 16, (defaultGlyphs.flatten.drop (5 * g.val)).take 5 =
      [State.reset.byteAt (5 * g.val), State.reset.byteAt (5 * g.val + 1), State.reset.byteAt (5 * g.val + 2),
        State.reset.byteAt (5 * g.val + 3), State.reset.byteAt (5 * g.val + 4)]

/-! ### Encoding -/

/-- Words written out from the patterns of R74 decode to their instructions (a sanity statement). -/
def Obligations.SampleWordsDecode : Prop :=
  decode .supported 0b0000000011100000 = .instr .cls ∧
  decode .supported 0b0010001100000001 = .instr (.call 0x301) ∧
  decode .supported 0b0011001101000010 = .instr (.seImm 3 0x42) ∧
  decode .supported 0b1000000100101110 = .instr (.shl 1) ∧
  decode .supported 0b1101000100100101 = .instr (.drw 1 2 5) ∧
  decode .supported 0b1110000110100001 = .instr (.sknp 1) ∧
  decode .supported 0b1111101001010101 = .instr (.ldMiVx 10)

/-- Decode and encode agree: every well-formed instruction, with every operand, comes back from its word and from its
bytes, whatever follows them. (That the encoder writes 0 in ignored bits is log 17.) -/
def Obligations.DecodeOfEncodeIsIdentity : Prop :=
  ∀ (b : BulkTransfer) (i : Instr), i.wf b = true →
    decode b (encode i) = .instr i ∧ ∀ rest, decodeBytes b (encodeBytes i ++ rest) = .opcode (.instr i) rest

/-- The opcode map of R74: a word decodes to an instruction exactly when `OPC & mask == match` for its row, its fields
are those of R71, and the row exists under `BULK_TRANSFER` (D14). That bits outside the masks are ignored is D13. -/
def Obligations.DecodeFollowsTheOpcodeMap : Prop :=
  ∀ (b : BulkTransfer) (w : Word) (i : Instr),
    decode b w = .instr i ↔ w &&& i.row.mask = i.row.pattern ∧ i.fieldsOf w ∧ i.wf b = true

/-- The complete set of unrecognized opcodes, in the words of R76 (which the spec derives from R73 and R74, D13, D14). -/
def Obligations.UnrecognizedWordsAreExactlyThese : Prop :=
  ∀ (b : BulkTransfer) (w w' : Word), decode b w = .unrecognized w' ↔ w' = w ∧
    ((slice w 15 12 = 0x0 ∧ slice w 7 0 ∉ [0xE0, 0xEE]) ∨
     (slice w 15 12 = 0x8 ∧ slice w 3 0 ∈ [0x8, 0x9, 0xA, 0xB, 0xC, 0xD, 0xF]) ∨
     (slice w 15 12 = 0xE ∧ slice w 7 0 ∉ [0x9E, 0xA1]) ∨
     (slice w 15 12 = 0xF ∧ slice w 7 0 ∉ [0x07, 0x0A, 0x15, 0x18, 0x1E, 0x29, 0x33, 0x55, 0x65]) ∨
     (slice w 15 12 = 0xF ∧ slice w 7 0 ∈ [0x55, 0x65] ∧ b = .unsupported))

/-- R70: every instruction is one 16-bit word, fetched big-endian from `pc` and `pc + 1`, and a decoder always consumes
exactly 2 bytes, whatever they are. -/
def Obligations.DecodingConsumesTwoBytes : Prop :=
  (∀ i, (encodeBytes i).length = 2) ∧
  (∀ b hi lo rest, ∃ d, decodeBytes b (hi :: lo :: rest) = .opcode d rest) ∧
  ∀ (s : State), s.fetch.opc.toNat =
    256 * (s.byteAt (s.bound s.pc.toNat)).toNat + (s.byteAt (s.bound (s.pc.toNat + 1))).toNat

/-- R75: two words that differ only in the bits a matched pattern does not use decode to the same instruction. In the
`Ex` and `Fx` rows the `y` nibble belongs to the sub-key, and no bit is left over: one word, one instruction. -/
def Obligations.UnusedBitsAreIgnored : Prop :=
  ∀ (b : BulkTransfer) (w w' : Word) (i : Instr), decode b w = .instr i →
    (fieldTop w = 0x0 → fieldTop w' = 0x0 → fieldKk w' = fieldKk w → decode b w' = .instr i) ∧
    (fieldTop w = 0x5 ∨ fieldTop w = 0x9 → slice w' 15 4 = slice w 15 4 → decode b w' = .instr i) ∧
    (fieldTop w = 0x8 → fieldN w = 0x6 ∨ fieldN w = 0xE → slice w' 15 8 = slice w 15 8 → fieldN w' = fieldN w →
      decode b w' = .instr i) ∧
    (fieldTop w = 0xE ∨ fieldTop w = 0xF → decode b w' = .instr i → w' = w)

/-! ### Memory, fetch and the cycle -/

/-- R52: what `Bound` reaches and raises. The two policies are D1, the unbounded sums D2. -/
def Obligations.BoundClampsOrMasks : Prop :=
  ∀ (s : State) (a : Nat), s.bound a ≤ 0xFFF ∧
    (a ≤ 0xFFF → s.bound a = a ∧ s.noteAddr a = s) ∧
    (0xFFF < a → s.noteAddr a = s.raise (.addressOutOfRange a) ∧
      (s.cfg.addrPolicy = .clamp → s.bound a = 0xFFF) ∧ (s.cfg.addrPolicy = .mask → s.bound a = a % 0x1000))

/-- R53: `MemRead(a, 1)` is `MEM[Bound(a)]` and `MemWrite(a, 1, v)` is `MEM[Bound(a)] <- v`; both raise what `Bound`
raises and change nothing else. -/
def Obligations.AccessesGoThroughBound : Prop :=
  ∀ (s : State) (a : Nat) (v : Byte),
    (s.memRead a).1 = s.byteAt (s.bound a) ∧ (s.memRead a).2.diag = (s.noteAddr a).diag ∧
    ChangesOnly [.diag] s (s.memRead a).2 ∧
    (s.memWrite a v).byteAt (s.bound a) = v ∧ OtherBytes [s.bound a] s (s.memWrite a v) ∧
    (s.memWrite a v).diag = (s.noteAddr a).diag ∧ ChangesOnly [.memory, .diag] s (s.memWrite a v)

/-- Two canonical memories that read alike at every address are the same list (the model's representation, log 5). -/
def Obligations.CanonicalMemoriesAreDetermined : Prop :=
  ∀ (font : Vector Byte 80) (m m' : Memory), Memory.wf font m → Memory.wf font m' →
    (∀ a, Memory.read font m a = Memory.read font m' a) → m = m'

/-- R103: the fetch latches the word at `pc`, high byte first, does not change `pc`, and records up to two
`AddressOutOfRange` diagnostics, the one of `pc` before the one of `pc + 1`; it changes nothing else. -/
def Obligations.FetchLatchesTheOpcode : Prop :=
  ∀ s : State, s.fetch.opc = concat (s.byteAt (s.bound s.pc.toNat)) (s.byteAt (s.bound (s.pc.toNat + 1))) ∧
    s.fetch.diag = s.diag ++ addrDiags [s.pc.toNat, s.pc.toNat + 1] ∧ ChangesOnly [.latch, .diag] s s.fetch

/-- A write is fetchable from the next cycle on (R61, which is the decision D27), and a word placed by `withFetchWord`
(the model's, log 7) is the one the next cycle fetches. -/
def Obligations.StoredBytesAreFetched : Prop :=
  (∀ (s : State) (hi lo : Byte), s.bound s.pc.toNat ≠ s.bound (s.pc.toNat + 1) →
    ((s.memWrite s.pc.toNat hi).memWrite (s.pc.toNat + 1) lo).clearDiag.fetch.opc = concat hi lo) ∧
  ∀ (s : State) (nbits w : Nat), (s.withFetchWord nbits w).halted = false ∧
    (s.withFetchWord nbits w).clearDiag.fetch.opc = tableWord nbits w

/-- A step of an engine that is not halted runs the instruction its fetched word decodes to, on the fetched state, and
then ticks unless the instruction was fatal (R100; D6 and D19 for the tick). -/
def Obligations.StepRunsTheDecodedInstruction : Prop :=
  ∀ (s t : State) (i : Instr), s.halted = false → decode s.cfg.bulk s.fetchWord = .instr i →
    exec i s.clearDiag.fetch = .next t →
    step s = .next (if t.halted then t else t.tick) ∧ s.clearDiag.fetch.opc = s.fetchWord

/-- An unrecognized opcode is a logged no-op with +2 advance (R110); the tick of that cycle is D19. -/
def Obligations.UnrecognizedOpcodeIsALoggedNoOp : Prop :=
  ∀ (s : State) (w : Word), s.halted = false → decode s.cfg.bulk s.fetchWord = .unrecognized w →
    ∃ t, step s = .next t ∧ Advanced 2 s t ∧
      t.diag = addrDiags [s.pc.toNat, s.pc.toNat + 1] ++ [.decodeFailure s.fetchWord] ∧ t.opc = s.fetchWord ∧
      t.dt.toNat = s.dt.toNat - 1 ∧ t.st.toNat = s.st.toNat - 1 ∧ t.tone = (s.tone || decide (s.st.toNat = 2)) ∧
      ChangesOnly [.pc, .diag, .latch, .delay, .sound, .tone] s t

/-- A halted engine's cycle changes no state and reports nothing (R101, which is the decisions D6 and D34). -/
def Obligations.HaltedCycleDoesNothing : Prop :=
  ∀ s : State, s.halted = true → ∃ t, step s = .next t ∧ t.diag = [] ∧ ChangesOnly [.diag] s t

/-- R108: the timer tick. Each timer goes down by 1, floored at 0; a sound timer that becomes 1 sets `TONE`; nothing
else changes. -/
def Obligations.TickCountsDownAndSignalsTone : Prop :=
  ∀ s : State,
    (0 < s.dt.toNat → s.tick.dt.toNat = s.dt.toNat - 1) ∧ (s.dt.toNat = 0 → s.tick.dt.toNat = 0) ∧
    (0 < s.st.toNat → s.tick.st.toNat = s.st.toNat - 1) ∧ (s.st.toNat = 0 → s.tick.st.toNat = 0) ∧
    (0 < s.st.toNat → s.tick.st.toNat = 1 → s.tick.tone = true) ∧
    (¬(0 < s.st.toNat ∧ s.tick.st.toNat = 1) → s.tick.tone = s.tone) ∧
    ChangesOnly [.delay, .sound, .tone] s s.tick

/-- Every cycle that does not halt ticks each timer once, whatever it executes, unless it executes the instruction that
sets that timer (R111; which cycles tick is D19). -/
def Obligations.EveryCycleTicks : Prop :=
  ∀ s t : State, s.halted = false → step s = .next t → t.halted = false →
    ((∀ x, decode s.cfg.bulk s.fetchWord ≠ .instr (.ldDtVx x)) → t.dt.toNat = s.dt.toNat - 1) ∧
    ((∀ x, decode s.cfg.bulk s.fetchWord ≠ .instr (.ldStVx x)) →
      t.st.toNat = s.st.toNat - 1 ∧ t.tone = (s.tone || decide (s.st.toNat = 2)))

/-! ### Control flow -/

/-- R131: `1nnn`. -/
def Obligations.JumpSetsPc : Prop :=
  (∀ b, RowDecodes b 0x1000 0xF000 (fun w => .jp (fieldNnn w))) ∧
  (∀ (s : State) (nnn : BitVec 12),
    ∃ t, exec (.jp nnn) s = .next t ∧ t.pc.toNat = nnn.toNat ∧ ChangesOnly [.pc] s t) ∧
  ∀ (s : State) (nnn : BitVec 12), s.halted = false → decode s.cfg.bulk s.fetchWord = .instr (.jp nnn) →
    nnn.toNat = s.pc.toNat →
    ∃ t, step s = .next t ∧ t.pc = s.pc ∧ t.dt.toNat = s.dt.toNat - 1 ∧ t.st.toNat = s.st.toNat - 1

/-- `Bnnn` (R137): always `V0`, and the sum is not reduced to 12 bits (D3). -/
def Obligations.ComputedJumpAddsV0 : Prop :=
  ∀ (s : State) (nnn : BitVec 12), ∃ t, exec (.jpV0 nnn) s = .next t ∧
    t.pc.toNat = nnn.toNat + (s.reg 0).toNat ∧ ChangesOnly [.pc] s t

/-- `2nnn` with room on the stack (R132): it pushes its own address. The slot order is D4. -/
def Obligations.CallPushesItsOwnAddress : Prop :=
  ∀ (s : State) (nnn : BitVec 12) (h : s.sp.val < 16), ∃ t, exec (.call nnn) s = .next t ∧
    t.sp.val = s.sp.val + 1 ∧ t.stack[s.sp.val] = s.pc ∧
    (∀ j : Fin 16, j.val ≠ s.sp.val → t.stack[j] = s.stack[j]) ∧ t.pc.toNat = nnn.toNat ∧
    ChangesOnly [.callStack, .pc] s t

/-- `00EE` with an entry on the stack (R130): it goes 2 behind the popped address, modulo 2^16 (D3), and leaves the
entries as they are (D4). -/
def Obligations.ReturnGoesBehindTheCall : Prop :=
  ∀ (s : State) (h : 0 < s.sp.val), ∃ t, exec .ret s = .next t ∧ t.sp.val = s.sp.val - 1 ∧ t.stack = s.stack ∧
    t.pc.toNat = ((s.stack[s.sp.val - 1]'(by omega)).toNat + 2) % 65536 ∧ ChangesOnly [.callStack, .pc] s t

/-- `2nnn` and then, with the stack as the call left it, `00EE` return to the instruction after the call: the source's
round trip, with D3 for the wrap and D4 for the stack. -/
def Obligations.CallThenReturnComesBack : Prop :=
  ∀ (s t u : State) (nnn : BitVec 12), s.sp.val < 16 → exec (.call nnn) s = .next t → u.sp = t.sp →
    u.stack = t.stack → ∃ v, exec .ret u = .next v ∧ Advanced 2 s v ∧ v.sp = s.sp ∧
      ∀ j : Fin 16, j.val < s.sp.val → v.stack[j] = s.stack[j]

/-- A stack error under each policy (R242: the decisions D5 and D6): under `HALT` the call or return changes nothing
and the engine halts; under `IGNORE` it is a no-op with +2. -/
def Obligations.StackErrorHaltsOrIsIgnored : Prop :=
  ∀ (s : State) (i : Instr) (d : Diag),
    (i = .ret ∧ s.sp.val = 0 ∧ d = .stackUnderflow s.pc) ∨
      ((∃ nnn, i = .call nnn) ∧ s.sp.val = 16 ∧ d = .stackOverflow s.pc) →
    ∃ t, exec i s = .next t ∧ t.diag = s.diag ++ [d] ∧
      (s.cfg.stackPolicy = .halt → t.halted = true ∧ ChangesOnly [.halted, .diag] s t) ∧
      (s.cfg.stackPolicy = .ignore → Advanced 2 s t ∧ ChangesOnly [.pc, .diag] s t)

/-- R133 and R134: `3xkk` and `4xkk`. -/
def Obligations.SkipOnImmediate : Prop :=
  (∀ b, RowDecodes b 0x3000 0xF000 (fun w => .seImm (fieldX w) (fieldKk w))) ∧
  (∀ b, RowDecodes b 0x4000 0xF000 (fun w => .sneImm (fieldX w) (fieldKk w))) ∧
  ∀ (s : State) (x : RegId) (kk : Byte),
    (∃ t, exec (.seImm x kk) s = .next t ∧ StepsBy (if s.reg x = kk then 4 else 2) s t ∧ ChangesOnly [.pc] s t) ∧
    (∃ t, exec (.sneImm x kk) s = .next t ∧ StepsBy (if s.reg x = kk then 2 else 4) s t ∧ ChangesOnly [.pc] s t)

/-- `5xy0` and `9xy0` (R135, R136; that their `n` nibble is ignored is D13). -/
def Obligations.SkipOnRegisters : Prop :=
  ∀ (s : State) (x y : RegId),
    (∃ t, exec (.seReg x y) s = .next t ∧ Advanced (if s.reg x = s.reg y then 4 else 2) s t ∧
      ChangesOnly [.pc] s t) ∧
    (∃ t, exec (.sneReg x y) s = .next t ∧ Advanced (if s.reg x = s.reg y then 2 else 4) s t ∧
      ChangesOnly [.pc] s t)

/-- `Ex9E` and `ExA1` (R224, R225): the key is the low four bits of `V[x]` (R223, which is D17). -/
def Obligations.SkipOnKey : Prop :=
  ∀ (s : State) (x : RegId),
    (∃ t, exec (.skp x) s = .next t ∧
      Advanced (if s.key[Fin.ofNat 16 ((s.reg x).toNat % 16)] then 4 else 2) s t ∧ ChangesOnly [.pc] s t) ∧
    (∃ t, exec (.sknp x) s = .next t ∧
      Advanced (if s.key[Fin.ofNat 16 ((s.reg x).toNat % 16)] then 2 else 4) s t ∧ ChangesOnly [.pc] s t)

/-- The advance policy of every instruction (R106, R107; D3 for the wrap): only the six skips can advance by 4, and by
no more; only return, jump, call and computed jump set `pc`; only `Fx0A` can hold it; every other advances by 2. -/
def Obligations.AdvancePolicyOfEveryInstruction : Prop :=
  ∀ (i : Instr) (s t : State), exec i s = .next t →
    match i with
    | .ret | .jp _ | .call _ | .jpV0 _ => True
    | .seImm x kk => Advanced (if s.reg x = kk then 4 else 2) s t
    | .sneImm x kk => Advanced (if s.reg x = kk then 2 else 4) s t
    | .seReg _ _ | .sneReg _ _ | .skp _ | .sknp _ => Advanced 2 s t ∨ Advanced 4 s t
    | .ldVxK _ => Advanced 2 s t ∨ t.pc = s.pc
    | _ => Advanced 2 s t

/-! ### ALU -/

/-- R151 and R153: `6xkk` and `8xy0`. -/
def Obligations.LoadRegister : Prop :=
  (∀ b, RowDecodes b 0x6000 0xF000 (fun w => .ldImm (fieldX w) (fieldKk w))) ∧
  (∀ b, RowDecodes b 0x8000 0xF00F (fun w => .ldReg (fieldX w) (fieldY w))) ∧
  ∀ (s : State) (x y : RegId) (kk : Byte),
    (∃ t, exec (.ldImm x kk) s = .next t ∧ t.reg x = kk ∧ OtherRegs [x] s t ∧
      StepsBy 2 s t ∧ ChangesOnly [.regs, .pc] s t) ∧
    (∃ t, exec (.ldReg x y) s = .next t ∧ t.reg x = s.reg y ∧ OtherRegs [x] s t ∧
      StepsBy 2 s t ∧ ChangesOnly [.regs, .pc] s t)

/-- R152: `7xkk` wraps at 256 and writes no flag. -/
def Obligations.AddImmediateWraps : Prop :=
  (∀ b, RowDecodes b 0x7000 0xF000 (fun w => .addImm (fieldX w) (fieldKk w))) ∧
  ∀ (s : State) (x : RegId) (kk : Byte), ∃ t, exec (.addImm x kk) s = .next t ∧
    (t.reg x).toNat = ((s.reg x).toNat + kk.toNat) % 256 ∧ OtherRegs [x] s t ∧
      StepsBy 2 s t ∧ ChangesOnly [.regs, .pc] s t

/-- `8xy1`, `8xy2`, `8xy3` (R154 to R156), bit by bit; that `VF` is unchanged unless it is `V[x]` is D8. -/
def Obligations.LogicIsBitwise : Prop :=
  ∀ (s : State) (x y : RegId),
    (∃ t, exec (.orReg x y) s = .next t ∧
      (∀ k < 8, (t.reg x).getLsbD k = ((s.reg x).getLsbD k || (s.reg y).getLsbD k)) ∧ WritesRegs [x] s t) ∧
    (∃ t, exec (.andReg x y) s = .next t ∧
      (∀ k < 8, (t.reg x).getLsbD k = ((s.reg x).getLsbD k && (s.reg y).getLsbD k)) ∧ WritesRegs [x] s t) ∧
    (∃ t, exec (.xorReg x y) s = .next t ∧
      (∀ k < 8, (t.reg x).getLsbD k = ((s.reg x).getLsbD k ^^ (s.reg y).getLsbD k)) ∧ WritesRegs [x] s t)

/-- `8xy4` (R157): sum modulo 256 and carry; for `x = 0xF` the flag is what `VF` ends as (D7). -/
def Obligations.AddSetsCarry : Prop :=
  ∀ (s : State) (x y : RegId), ∃ t, exec (.addReg x y) s = .next t ∧
    (x ≠ VF → (t.reg x).toNat = ((s.reg x).toNat + (s.reg y).toNat) % 256) ∧
    t.reg VF = (if 255 < (s.reg x).toNat + (s.reg y).toNat then 1 else 0) ∧ WritesRegs [x, VF] s t

/-- `8xy5` and `8xy7` (R158, R160): difference modulo 256 and no-borrow; for `x = 0xF` the flag stays (D7). -/
def Obligations.SubtractSetsNoBorrow : Prop :=
  ∀ (s : State) (x y : RegId),
    (∃ t, exec (.sub x y) s = .next t ∧
      (x ≠ VF → (t.reg x).toNat = ((s.reg x).toNat + 256 - (s.reg y).toNat) % 256) ∧
      t.reg VF = (if (s.reg y).toNat ≤ (s.reg x).toNat then 1 else 0) ∧ WritesRegs [x, VF] s t) ∧
    (∃ t, exec (.subn x y) s = .next t ∧
      (x ≠ VF → (t.reg x).toNat = ((s.reg y).toNat + 256 - (s.reg x).toNat) % 256) ∧
      t.reg VF = (if (s.reg x).toNat ≤ (s.reg y).toNat then 1 else 0) ∧ WritesRegs [x, VF] s t)

/-- `8xy6` and `8xyE` (R159, R161): a shift by one of `V[x]`, and the bit shifted out; for `x = 0xF` the flag stays
(D7). -/
def Obligations.ShiftsMoveOneBitOut : Prop :=
  ∀ (s : State) (x : RegId),
    (∃ t, exec (.shr x) s = .next t ∧ (x ≠ VF → (t.reg x).toNat = (s.reg x).toNat / 2) ∧
      (t.reg VF).toNat = (s.reg x).toNat % 2 ∧ WritesRegs [x, VF] s t) ∧
    (∃ t, exec (.shl x) s = .next t ∧ (x ≠ VF → (t.reg x).toNat = (s.reg x).toNat * 2 % 256) ∧
      (t.reg VF).toNat = (s.reg x).toNat / 128 ∧ WritesRegs [x, VF] s t)

/-- `Cxkk` (R162): the next byte of the free source under the mask, whatever it is, and one draw. The source is the
model's free value `Config.randByte` (D22, log 2). -/
def Obligations.RandomByteUnderMask : Prop :=
  ∀ (s : State) (x : RegId) (kk : Byte), ∃ t, exec (.rnd x kk) s = .next t ∧
    t.reg x = Config.randByte s.draws &&& kk ∧ (kk = 0 → t.reg x = 0) ∧ t.draws = s.draws + 1 ∧
    OtherRegs [x] s t ∧ Advanced 2 s t ∧ ChangesOnly [.regs, .draws, .pc] s t

/-- The flag discipline (R21, R150; D7, D8): the seven flag-writing instructions leave 0 or 1 in `VF`, and an
instruction changes a register only if it names it as its destination or, for `VF`, writes the flag. -/
def Obligations.FlagAndDestinationDiscipline : Prop :=
  ∀ (i : Instr) (s t : State), exec i s = .next t →
    (i.writesFlag = true → t.reg VF = 0 ∨ t.reg VF = 1) ∧
    ∀ r, t.reg r ≠ s.reg r → i.writesX r = true ∨ (r = VF ∧ i.writesFlag = true)

/-! ### Index register and memory transfers -/

/-- R180: `Annn`. -/
def Obligations.LoadIndex : Prop :=
  (∀ b, RowDecodes b 0xA000 0xF000 (fun w => .ldI (fieldNnn w))) ∧
  ∀ (s : State) (nnn : BitVec 12), ∃ t, exec (.ldI nnn) s = .next t ∧ t.i.toNat = nnn.toNat ∧ t.i.toNat ≤ 0xFFF ∧
    StepsBy 2 s t ∧ ChangesOnly [.index, .pc] s t

/-- `Fx1E` (R182): the sum modulo 2^16, and the flag of an unbounded sum above 0xFFF (D15), which `VF` ends as (D7). -/
def Obligations.AddToIndex : Prop :=
  ∀ (s : State) (x : RegId), ∃ t, exec (.addIVx x) s = .next t ∧
    t.i.toNat = (s.i.toNat + (s.reg x).toNat) % 65536 ∧
    t.reg VF = (if 0xFFF < s.i.toNat + (s.reg x).toNat then 1 else 0) ∧
    OtherRegs [VF] s t ∧ Advanced 2 s t ∧ ChangesOnly [.regs, .index, .pc] s t

/-- `Fx29` (R183): five times the whole of `V[x]` (D16). -/
def Obligations.IndexOfGlyph : Prop :=
  ∀ (s : State) (x : RegId), ∃ t, exec (.ldFVx x) s = .next t ∧ t.i.toNat = (s.reg x).toNat * 5 ∧
    Advanced 2 s t ∧ ChangesOnly [.index, .pc] s t

/-- `Fx33` (R184): hundreds, tens and ones at `I`, `I + 1`, `I + 2`, each bounded (D1, D2); where bounded addresses
coincide the later digit stands (D31). -/
def Obligations.StoreDecimalDigits : Prop :=
  ∀ (s : State) (x : RegId), ∃ t, exec (.ldBVx x) s = .next t ∧
    (t.byteAt (s.bound (s.i.toNat + 2))).toNat = (s.reg x).toNat % 10 ∧
    (s.bound (s.i.toNat + 1) ≠ s.bound (s.i.toNat + 2) →
      (t.byteAt (s.bound (s.i.toNat + 1))).toNat = (s.reg x).toNat / 10 % 10) ∧
    (s.bound s.i.toNat ≠ s.bound (s.i.toNat + 1) → s.bound s.i.toNat ≠ s.bound (s.i.toNat + 2) →
      (t.byteAt (s.bound s.i.toNat)).toNat = (s.reg x).toNat / 100) ∧
    OtherBytes [s.bound s.i.toNat, s.bound (s.i.toNat + 1), s.bound (s.i.toNat + 2)] s t ∧
    t.diag = s.diag ++ addrDiags [s.i.toNat, s.i.toNat + 1, s.i.toNat + 2] ∧
    Advanced 2 s t ∧ ChangesOnly [.memory, .diag, .pc] s t

/-- `Fx55` (R185): `V0` to `V[x]` at `I` upward, each address bounded (D1, D2), in ascending order (D32), `I` unchanged
(D14). -/
def Obligations.StoreRegisters : Prop :=
  ∀ (s : State) (x : RegId), ∃ t, exec (.ldMiVx x) s = .next t ∧
    (∀ j : RegId, j ≤ x →
      (∀ k : RegId, j < k → k ≤ x → s.bound (s.i.toNat + k.val) ≠ s.bound (s.i.toNat + j.val)) →
      t.byteAt (s.bound (s.i.toNat + j.val)) = s.reg j) ∧
    OtherBytes ((List.range (x.val + 1)).map (fun j => s.bound (s.i.toNat + j))) s t ∧
    t.diag = s.diag ++ addrDiags ((List.range (x.val + 1)).map (fun j => s.i.toNat + j)) ∧
    Advanced 2 s t ∧ ChangesOnly [.memory, .diag, .pc] s t

/-- `Fx65` (R186): `V0` to `V[x]` from `I` upward, each address bounded (D1, D2), `I` unchanged (D14). -/
def Obligations.LoadRegisters : Prop :=
  ∀ (s : State) (x : RegId), ∃ t, exec (.ldVxMi x) s = .next t ∧
    (∀ j : RegId, j ≤ x → t.reg j = s.byteAt (s.bound (s.i.toNat + j.val))) ∧
    (∀ j : RegId, x < j → t.reg j = s.reg j) ∧
    t.diag = s.diag ++ addrDiags ((List.range (x.val + 1)).map (fun j => s.i.toNat + j)) ∧
    Advanced 2 s t ∧ ChangesOnly [.regs, .diag, .pc] s t

/-! ### Display -/

/-- `00E0` (R200): every pixel 0 and `REDRAW` set, changed or not (D12). -/
def Obligations.ClearDisplay : Prop :=
  ∀ s : State, ∃ t, exec .cls s = .next t ∧ (∀ r c, t.pixel r c = false) ∧ t.redraw = true ∧
    Advanced 2 s t ∧ ChangesOnly [.display, .redraw, .pc] s t

/-- `Dxyn` (R201, R202): the covered pixels, each wrapped on its own, are complemented and no others; `VF` is 1 exactly
when a covered pixel was on; `REDRAW` is set (D12). Bit 7 leftmost is D11, bounded sprite addresses D1 and D2. -/
def Obligations.DrawXorsTheSpriteWithWraparound : Prop :=
  ∀ (s : State) (x y : RegId) (n : Fin 16), ∃ t, exec (.drw x y n) s = .next t ∧
    (∀ R C, s.spriteCovers (s.reg x).toNat (s.reg y).toNat n.val R C → t.pixel R C = !s.pixel R C) ∧
    (∀ R C, ¬s.spriteCovers (s.reg x).toNat (s.reg y).toNat n.val R C → t.pixel R C = s.pixel R C) ∧
    ((∃ R C, s.spriteCovers (s.reg x).toNat (s.reg y).toNat n.val R C ∧ s.pixel R C = true) → t.reg VF = 1) ∧
    ((∀ R C, s.spriteCovers (s.reg x).toNat (s.reg y).toNat n.val R C → s.pixel R C = false) → t.reg VF = 0) ∧
    t.redraw = true ∧ t.diag = s.diag ++ addrDiags ((List.range n.val).map (fun r => s.i.toNat + r)) ∧
    OtherRegs [VF] s t ∧ Advanced 2 s t ∧ ChangesOnly [.regs, .display, .redraw, .diag, .pc] s t

/-- Drawing the same sprite at the same place twice restores the buffer; the second draw collides exactly when a covered
pixel was off before the first (R203's precise sentence, which the spec derives from R202), so on a clear place exactly
when the sprite has a set bit. (That R203 also says so of every place is log 25.) The second draw may name any registers
that hold the same place; it may even be placed by the flag the first draw left. -/
def Obligations.DrawingTwiceRestoresTheBuffer : Prop :=
  ∀ (s t : State) (x y x' y' : RegId) (n : Fin 16), exec (.drw x y n) s = .next t →
    (t.reg x').toNat % 64 = (s.reg x).toNat % 64 → (t.reg y').toNat % 32 = (s.reg y).toNat % 32 →
    ∃ u, exec (.drw x' y' n) t = .next u ∧ (∀ R C, u.pixel R C = s.pixel R C) ∧
      (u.reg VF = 0 ∨ u.reg VF = 1) ∧
      (u.reg VF = 1 ↔ ∃ R C, s.spriteCovers (s.reg x).toNat (s.reg y).toNat n.val R C ∧ s.pixel R C = false) ∧
      ((∀ R C, s.spriteCovers (s.reg x).toNat (s.reg y).toNat n.val R C → s.pixel R C = false) →
        (u.reg VF = 1 ↔ ∃ r c, r < n.val ∧ c < 8 ∧ s.spritePixel r c))

/-! ### Timers and keys -/

/-- R220: `Fx07` reads `DT` as it was before this cycle's tick. -/
def Obligations.ReadDelayTimer : Prop :=
  (∀ b, RowDecodes b 0xF007 0xF0FF (fun w => .ldVxDt (fieldX w))) ∧
  (∀ (s : State) (x : RegId), ∃ t, exec (.ldVxDt x) s = .next t ∧ t.reg x = s.dt ∧ OtherRegs [x] s t ∧
      StepsBy 2 s t ∧ ChangesOnly [.regs, .pc] s t) ∧
  ∀ (s : State) (x : RegId), s.halted = false → decode s.cfg.bulk s.fetchWord = .instr (.ldVxDt x) →
    ∃ t, step s = .next t ∧ t.reg x = s.dt ∧ t.dt.toNat = s.dt.toNat - 1

/-- `Fx15` and `Fx18` (R221, R222), and the same cycle's tick behind them (which the spec derives from R111 and R109). -/
def Obligations.SetTimers : Prop :=
  (∀ (s : State) (x : RegId),
    (∃ t, exec (.ldDtVx x) s = .next t ∧ t.dt = s.reg x ∧ Advanced 2 s t ∧ ChangesOnly [.delay, .pc] s t) ∧
    (∃ t, exec (.ldStVx x) s = .next t ∧ t.st = s.reg x ∧ Advanced 2 s t ∧ ChangesOnly [.sound, .pc] s t)) ∧
  ∀ (s : State) (x : RegId), s.halted = false →
    (decode s.cfg.bulk s.fetchWord = .instr (.ldDtVx x) →
      ∃ t, step s = .next t ∧ t.dt.toNat = (s.reg x).toNat - 1) ∧
    (decode s.cfg.bulk s.fetchWord = .instr (.ldStVx x) →
      ∃ t, step s = .next t ∧ t.st.toNat = (s.reg x).toNat - 1 ∧
        t.tone = (s.tone || decide ((s.reg x).toNat = 2)))

/-- `Fx0A` (R226): with a key pressed it takes the least pressed index (D18) and goes on; with none it holds `pc` and
waits. `KEYWAIT` is D35. -/
def Obligations.WaitForKey : Prop :=
  ∀ (s : State) (x : RegId),
    (∀ k : RegId, s.key[k] = true → (∀ j : RegId, j < k → s.key[j] = false) →
      ∃ t, exec (.ldVxK x) s = .next t ∧ (t.reg x).toNat = k.val ∧ t.keywait = false ∧ OtherRegs [x] s t ∧
        Advanced 2 s t ∧ ChangesOnly [.regs, .keywait, .pc] s t) ∧
    ((∀ k : RegId, s.key[k] = false) →
      ∃ t, exec (.ldVxK x) s = .next t ∧ t.keywait = true ∧ ChangesOnly [.keywait] s t)

/-- The wait-for-key sub-state is one (R33, which is D35): whatever the engine and the host do, an engine whose
`KEYWAIT` is set will fetch and execute `Fx0A` in its next cycle. -/
def Obligations.WaitingEngineStaysAtItsWait : Prop :=
  ∀ (a : HostAction) (s t : State), s.WaitInv → hostAct a s = .next t → t.WaitInv

/-! ### The whole machine -/

/-- No step ends in a fault or a refusal: every error of the spec is a diagnostic of a completed cycle (R240, R245; that
the model has no fault is log 22). -/
def Obligations.EveryCycleCompletes : Prop := ∀ s : State, ∃ t, step s = .next t

/-- The invariants hold at reset (log 6). -/
def Obligations.ResetMeetsTheInvariants : Prop := State.reset.Inv ∧ State.reset.WaitInv

/-- Every cycle keeps the canonical memory (log 5), gives a diagnostic list of the shape the spec derives in R243 (log
4), and leaves a halted engine only under the policy `HALT` (R32, D6). -/
def Obligations.StepKeepsTheInvariant : Prop := ∀ s t : State, s.Inv → step s = .next t → t.Inv

/-- Every host action keeps them too (R252; log 10 for the actions that are refused). -/
def Obligations.HostActionsKeepTheInvariant : Prop :=
  ∀ (a : HostAction) (s t : State), s.Inv → hostAct a s = .next t → t.Inv

/-- A cycle halts the engine only by a stack error under the policy `HALT`, and the stop is precise: everything is as
after the fetch, and the fatal record is the last one (R242, R243: D5, D6). -/
def Obligations.HaltIsAPreciseStackError : Prop :=
  ∀ s t : State, s.halted = false → step s = .next t → t.halted = true →
    s.cfg.stackPolicy = .halt ∧ ChangesOnly [.halted, .diag, .latch] s t ∧ t.opc = s.fetchWord ∧
    ((decode s.cfg.bulk s.fetchWord = .instr .ret ∧ s.sp.val = 0 ∧
        t.diag = addrDiags [s.pc.toNat, s.pc.toNat + 1] ++ [.stackUnderflow s.pc]) ∨
     ((∃ nnn, decode s.cfg.bulk s.fetchWord = .instr (.call nnn)) ∧ s.sp.val = 16 ∧
        t.diag = addrDiags [s.pc.toNat, s.pc.toNat + 1] ++ [.stackOverflow s.pc]))

/-- There is no return from a halt and no nesting: the engine leaves `HALTED` only by `initialize` (R246), and while it
is set no diagnostic occurs (D34). -/
def Obligations.OnlyInitializeEndsAHalt : Prop :=
  (∀ (a : HostAction) (s t : State), s.halted = true → hostAct a s = .next t →
    t.halted = true ∨ ∃ P, a = .init P) ∧
  (∀ (P : List Byte) (s t : State), portInit P s = .next t → t.halted = false) ∧
  ∀ s t : State, s.halted = true → step s = .next t → t.diag = []

/-- R31: the key state is the host's. No cycle writes it; `KEY_IN` sets one key and nothing else; `initialize` clears
it; and only `Ex9E`, `ExA1` and `Fx0A` read it: they do, and any other instruction does the same whatever the keys
are. -/
def Obligations.KeysBelongToTheHost : Prop :=
  (∀ s t : State, step s = .next t → t.key = s.key) ∧
  (∀ (s : State) (k : Nat) (p : Bool), k < 16 → ∃ t, portKeyIn k p s = .next t ∧
    (∀ j : RegId, t.key[j] = if j.val = k then p else s.key[j]) ∧ ChangesOnly [.keys] s t) ∧
  (∀ (P : List Byte) (s t : State), portInit P s = .next t → ∀ k : RegId, t.key[k] = false) ∧
  (∀ (i : Instr) (s t : State) (κ : Vector Bool 16), i.readsKeys = false → exec i s = .next t →
    exec i { s with key := κ } = .next { t with key := κ }) ∧
  ∀ i : Instr, i.readsKeys = true → ∃ (s t t' : State) (κ : Vector Bool 16), exec i s = .next t ∧
    exec i { s with key := κ } = .next t' ∧ t'.pc ≠ t.pc

/-- One memory of 4096 bytes, which the fetch reads (R50); only `Dxyn`, `Fx33`, `Fx55` and `Fx65` reach it after the
fetch, and of these `Dxyn` and `Fx65` only read. Any other instruction does the same whatever the memory holds. No register, stack, timer,
display or key is in it: a memory write changes none of them. -/
def Obligations.OnlyFourInstructionsReachMemory : Prop :=
  (∀ (s : State) (a : Nat), s.bound a ≤ 0xFFF) ∧
  (∀ (i : Instr) (s t : State) (m : Memory), i.reachesMemory = false → exec i s = .next t →
    t.mem = s.mem ∧ exec i { s with mem := m } = .next { t with mem := m }) ∧
  (∀ (x y : RegId) (n : Fin 16) (s t : State), exec (.drw x y n) s = .next t ∨ exec (.ldVxMi x) s = .next t →
    t.mem = s.mem) ∧
  (∀ s : State, s.fetch.opc = s.fetchWord ∧ s.fetch.mem = s.mem) ∧
  ∀ (s : State) (a : Nat) (v : Byte), ChangesOnly [.memory, .diag] s (s.memWrite a v)

/-- Who may write what (R22, R25, R27, R29, R30, R33, R37; D4, D12, D14, D35): outside its own writers no instruction
changes a piece of state. The draw counter and the latch are the model's own (log 2, log 3). -/
def Obligations.OnlyItsWritersChangeAPart : Prop :=
  ∀ (i : Instr) (s t : State), exec i s = .next t →
    (t.i ≠ s.i → (∃ nnn, i = .ldI nnn) ∨ ∃ x, i = .addIVx x ∨ i = .ldFVx x) ∧
    (t.fb ≠ s.fb ∨ t.redraw ≠ s.redraw → i = .cls ∨ ∃ x y n, i = .drw x y n) ∧
    (t.sp ≠ s.sp ∨ t.stack ≠ s.stack → i = .ret ∨ ∃ nnn, i = .call nnn) ∧
    (t.halted ≠ s.halted → i = .ret ∨ ∃ nnn, i = .call nnn) ∧
    (t.dt ≠ s.dt → ∃ x, i = .ldDtVx x) ∧ (t.st ≠ s.st → ∃ x, i = .ldStVx x) ∧
    (t.keywait ≠ s.keywait → ∃ x, i = .ldVxK x) ∧ (t.draws ≠ s.draws → ∃ x kk, i = .rnd x kk) ∧
    ((∃ a, t.byteAt a ≠ s.byteAt a) → ∃ x, i = .ldBVx x ∨ i = .ldMiVx x) ∧
    t.tone = s.tone ∧ t.key = s.key ∧ t.opc = s.opc ∧ t.cfg = s.cfg

/-- The ports that answer and clear (R40, which is D30; D20 for the tone): each answers the flag, clears it and changes
nothing else; the configuration outlives every host action (R37). -/
def Obligations.AcknowledgePortsAnswerAndClear : Prop :=
  (∀ s : State, (portRedrawAck s).1 = s.redraw ∧ (portRedrawAck s).2.redraw = false ∧
    ChangesOnly [.redraw] s (portRedrawAck s).2) ∧
  (∀ s : State, (portToneAck s).1 = s.tone ∧ (portToneAck s).2.tone = false ∧
    ChangesOnly [.tone] s (portToneAck s).2) ∧
  ∀ (a : HostAction) (s t : State), hostAct a s = .next t → t.cfg = s.cfg
end

