-- ==== Sys2Proof/Laws/Bits.lean ====
section
/-! SUPPORT. The laws of opcode bits: what a masked word says of its fields, and the fields of the words the encoder
builds. -/

namespace Sys2Proof

theorem slice_lt (w : Word) (hi lo : Nat) : slice w hi lo < 2 ^ (hi - lo + 1) := Nat.mod_lt _ (by positivity)

theorem fieldTop_lt (w : Word) : fieldTop w < 16 := slice_lt w 15 12

/-! ### Bytes (R11, R54) -/

theorem concat_toNat (a b : Byte) : (concat a b).toNat = a.toNat * 256 + b.toNat := by
  have := a.isLt; have := b.isLt
  simp [concat]; omega

@[simp] theorem concat_high_low (w : Word) : concat (highByte w) (lowByte w) = w := by
  have := w.isLt
  apply BitVec.eq_of_toNat_eq
  simp [concat, highByte, lowByte, slice]; omega

@[simp] theorem highByte_concat (a b : Byte) : highByte (concat a b) = a := by
  have := a.isLt; have := b.isLt
  apply BitVec.eq_of_toNat_eq
  simp [highByte, slice, concat_toNat]; omega

@[simp] theorem lowByte_concat (a b : Byte) : lowByte (concat a b) = b := by
  have := a.isLt; have := b.isLt
  apply BitVec.eq_of_toNat_eq
  simp [lowByte, slice, concat_toNat]; omega

/-! ### Masks (R74) -/

/-- The masks of R74 keep the top nibble and the lowest `k` bits. -/
theorem and_topMask {k : Nat} (hk : k ≤ 8) (n : Nat) :
    n &&& (2 ^ 12 * (2 ^ 4 - 1) + (2 ^ k - 1)) = 2 ^ 12 * (n / 2 ^ 12 % 2 ^ 4) + n % 2 ^ k := by
  have hp : 2 ^ k ≤ 2 ^ 8 := Nat.pow_le_pow_right (by norm_num) hk
  have hm : n % 2 ^ k < 2 ^ k := Nat.mod_lt _ (by positivity)
  have h1 : 2 ^ k - 1 < 2 ^ 12 := by omega
  have h2 : n % 2 ^ k < 2 ^ 12 := by omega
  apply Nat.eq_of_testBit_eq
  intro j
  rw [Nat.testBit_and, Nat.testBit_two_pow_mul_add _ h1, Nat.testBit_two_pow_mul_add _ h2,
    Nat.testBit_two_pow_sub_one, Nat.testBit_two_pow_sub_one, Nat.testBit_mod_two_pow, Nat.testBit_mod_two_pow,
    Nat.testBit_div_two_pow]
  split
  · simp [Bool.and_comm]
  · rename_i hj
    rw [show j - 12 + 12 = j by omega, Bool.and_comm]

theorem toNat_and_F000 (w : Word) : (w &&& (0xF000 : Word)).toNat = fieldTop w * 0x1000 := by
  have := and_topMask (k := 0) (by norm_num) w.toNat
  simp [fieldTop, slice, BitVec.toNat_and] at *; omega

theorem toNat_and_F00F (w : Word) : (w &&& (0xF00F : Word)).toNat = fieldTop w * 0x1000 + slice w 3 0 := by
  have := and_topMask (k := 4) (by norm_num) w.toNat
  simp [fieldTop, slice, BitVec.toNat_and] at *; omega

theorem toNat_and_F0FF (w : Word) : (w &&& (0xF0FF : Word)).toNat = fieldTop w * 0x1000 + slice w 7 0 := by
  have := and_topMask (k := 8) (by norm_num) w.toNat
  simp [fieldTop, slice, BitVec.toNat_and] at *; omega

theorem and_F000_eq (w p : Word) : w &&& (0xF000 : Word) = p ↔ fieldTop w * 0x1000 = p.toNat := by
  rw [← BitVec.toNat_inj, toNat_and_F000]

theorem and_F00F_eq (w p : Word) : w &&& (0xF00F : Word) = p ↔ fieldTop w * 0x1000 + slice w 3 0 = p.toNat := by
  rw [← BitVec.toNat_inj, toNat_and_F00F]

theorem and_F0FF_eq (w p : Word) : w &&& (0xF0FF : Word) = p ↔ fieldTop w * 0x1000 + slice w 7 0 = p.toNat := by
  rw [← BitVec.toNat_inj, toNat_and_F0FF]

/-- A row with mask 0xF000 is a top nibble. -/
theorem row_F000 (w : Word) {t : Nat} (ht : t < 16) : w &&& (0xF000 : Word) = BitVec.ofNat 16 (t * 0x1000) ↔ fieldTop w = t := by
  rw [← BitVec.toNat_inj, toNat_and_F000, BitVec.toNat_ofNat]; omega

/-- A row with mask 0xF00F is a top nibble and a sub-key `n`. -/
theorem row_F00F (w : Word) {t n : Nat} (ht : t < 16) (hn : n < 16) :
    w &&& (0xF00F : Word) = BitVec.ofNat 16 (t * 0x1000 + n) ↔ fieldTop w = t ∧ slice w 3 0 = n := by
  have := slice_lt w 3 0
  rw [← BitVec.toNat_inj, toNat_and_F00F, BitVec.toNat_ofNat]; omega

/-- A row with mask 0xF0FF is a top nibble and a sub-key `kk`. -/
theorem row_F0FF (w : Word) {t k : Nat} (ht : t < 16) (hk : k < 256) :
    w &&& (0xF0FF : Word) = BitVec.ofNat 16 (t * 0x1000 + k) ↔ fieldTop w = t ∧ slice w 7 0 = k := by
  have := slice_lt w 7 0
  rw [← BitVec.toNat_inj, toNat_and_F0FF, BitVec.toNat_ofNat]; omega

/-! ### The fields of the encoder's words (R71) -/

theorem fieldTop_wordNnn {t : Nat} (ht : t < 16) (nnn : BitVec 12) : fieldTop (wordNnn t nnn) = t := by
  have := nnn.isLt
  simp [fieldTop, slice, wordNnn]; omega

theorem fieldTop_wordXkk {t : Nat} (ht : t < 16) (x : RegId) (kk : Byte) : fieldTop (wordXkk t x kk) = t := by
  have := x.isLt; have := kk.isLt
  simp [fieldTop, slice, wordXkk]; omega

theorem fieldTop_wordXyn {t : Nat} (ht : t < 16) (x y n : Fin 16) : fieldTop (wordXyn t x y n) = t := by
  have := x.isLt; have := y.isLt; have := n.isLt
  simp [fieldTop, slice, wordXyn]; omega

theorem fieldNnn_wordNnn (t : Nat) (nnn : BitVec 12) : fieldNnn (wordNnn t nnn) = nnn := by
  have := nnn.isLt
  apply BitVec.eq_of_toNat_eq; simp [fieldNnn, slice, wordNnn]; omega

theorem fieldX_wordXkk (t : Nat) (x : RegId) (kk : Byte) : fieldX (wordXkk t x kk) = x := by
  have := x.isLt; have := kk.isLt
  apply Fin.ext; simp [fieldX, slice, wordXkk, Fin.ofNat]; omega

theorem fieldKk_wordXkk (t : Nat) (x : RegId) (kk : Byte) : fieldKk (wordXkk t x kk) = kk := by
  have := x.isLt; have := kk.isLt
  apply BitVec.eq_of_toNat_eq; simp [fieldKk, slice, wordXkk]; omega

theorem slice_7_0_wordXkk (t : Nat) (x : RegId) (kk : Byte) : slice (wordXkk t x kk) 7 0 = kk.toNat := by
  have := x.isLt; have := kk.isLt
  simp [slice, wordXkk]; omega

theorem fieldX_wordXyn (t : Nat) (x y n : Fin 16) : fieldX (wordXyn t x y n) = x := by
  have := x.isLt; have := y.isLt; have := n.isLt
  apply Fin.ext; simp [fieldX, slice, wordXyn, Fin.ofNat]; omega

theorem fieldY_wordXyn (t : Nat) (x y n : Fin 16) : fieldY (wordXyn t x y n) = y := by
  have := x.isLt; have := y.isLt; have := n.isLt
  apply Fin.ext; simp [fieldY, slice, wordXyn, Fin.ofNat]; omega

theorem fieldN_wordXyn (t : Nat) (x y n : Fin 16) : fieldN (wordXyn t x y n) = n := by
  have := x.isLt; have := y.isLt; have := n.isLt
  apply Fin.ext; simp [fieldN, slice, wordXyn, Fin.ofNat]; omega

theorem slice_3_0_wordXyn (t : Nat) (x y n : Fin 16) : slice (wordXyn t x y n) 3 0 = n.val := by
  have := x.isLt; have := y.isLt; have := n.isLt
  simp [slice, wordXyn]; omega

end Sys2Proof
end

