-- ==== Sys2Proof/Laws/Memory.lean ====
section
/-! SUPPORT. The laws of the memory list: read after write, the canonical form, and that the form is canonical. -/

namespace Sys2Proof.Machine

theorem Memory.lookup_erase_same (m : Memory) (a : Nat) : Memory.lookup (Memory.erase m a) a = none := by
  induction m with
  | nil => rfl
  | cons c m ih =>
    by_cases h : c.1 = a
    · simp [Memory.erase, h, ih]
    · simp [Memory.erase, h, ih, Memory.lookup, Ne.symm h]

theorem Memory.lookup_erase_other (m : Memory) {a b : Nat} (h : b ≠ a) :
    Memory.lookup (Memory.erase m a) b = Memory.lookup m b := by
  induction m with
  | nil => rfl
  | cons c m ih =>
    by_cases hc : c.1 = a
    · simp [Memory.erase, hc, ih, Memory.lookup, h]
    · simp [Memory.erase, hc, ih, Memory.lookup]

theorem Memory.lookup_insert_other (m : Memory) {a b : Nat} (v : Byte) (h : b ≠ a) :
    Memory.lookup (Memory.insert m a v) b = Memory.lookup m b := by
  induction m with
  | nil => simp [Memory.insert, Memory.lookup, h]
  | cons c m ih =>
    obtain ⟨k, w⟩ := c
    simp only [Memory.insert]
    split <;> simp [Memory.lookup, h, ih]

theorem Memory.lookup_insert_same (m : Memory) (a : Nat) (v : Byte) (h : Memory.lookup m a = none) :
    Memory.lookup (Memory.insert m a v) a = some v := by
  induction m with
  | nil => simp [Memory.insert, Memory.lookup]
  | cons c m ih =>
    obtain ⟨k, w⟩ := c
    simp only [Memory.lookup] at h
    split at h
    · cases h
    · rename_i hk
      simp only [Memory.insert]
      split
      · simp [Memory.lookup]
      · simp [Memory.lookup, hk, ih h]

/-- A read gives the byte written at its address. -/
@[simp] theorem Memory.read_write_same (font : Vector Byte 80) (m : Memory) (a : Nat) (v : Byte) :
    Memory.read font (Memory.write font m a v) a = v := by
  unfold Memory.read Memory.write
  split
  · rename_i h; simp [Memory.lookup_erase_same, h]
  · simp [Memory.lookup_insert_same _ _ _ (Memory.lookup_erase_same m a)]

/-- A write leaves every other address alone. -/
theorem Memory.read_write_other (font : Vector Byte 80) (m : Memory) {a b : Nat} (v : Byte) (h : b ≠ a) :
    Memory.read font (Memory.write font m a v) b = Memory.read font m b := by
  unfold Memory.read Memory.write
  split
  · rw [Memory.lookup_erase_other m h]
  · rw [Memory.lookup_insert_other _ v h, Memory.lookup_erase_other m h]

/-- Both cases of a read after a write. -/
theorem Memory.read_write (font : Vector Byte 80) (m : Memory) (a b : Nat) (v : Byte) :
    Memory.read font (Memory.write font m a v) b = if b = a then v else Memory.read font m b := by
  split
  · rename_i h; subst h; simp
  · exact Memory.read_write_other font m v ‹_›

/-- An unlisted memory reads as the background. -/
@[simp] theorem Memory.read_nil (font : Vector Byte 80) (a : Nat) : Memory.read font [] a = background font a := rfl

/-! ### The canonical form -/

theorem Memory.wf_nil (font : Vector Byte 80) : Memory.wf font [] := by simp [Memory.wf]

theorem Memory.mem_insert {m : Memory} {a : Nat} {v : Byte} {c : Host.Cell} :
    c ∈ Memory.insert m a v ↔ c = (a, v) ∨ c ∈ m := by
  induction m with
  | nil => simp [Memory.insert]
  | cons d m ih =>
    obtain ⟨k, w⟩ := d
    simp only [Memory.insert]
    split
    · simp
    · simp only [List.mem_cons, ih]; tauto

theorem Memory.mem_erase {m : Memory} {a : Nat} {c : Host.Cell} :
    c ∈ Memory.erase m a ↔ c ∈ m ∧ c.1 ≠ a := by
  induction m with
  | nil => simp [Memory.erase]
  | cons d m ih =>
    by_cases h : d.1 = a
    · simp only [Memory.erase, h, if_true, ih, List.mem_cons]
      exact ⟨fun hc => ⟨.inr hc.1, hc.2⟩, fun hc => ⟨hc.1.resolve_left fun e => hc.2 (e ▸ h), hc.2⟩⟩
    · simp only [Memory.erase, h, if_false, ih, List.mem_cons]
      exact ⟨fun hc => hc.elim (fun e => ⟨.inl e, e ▸ h⟩) (fun k => ⟨.inr k.1, k.2⟩),
        fun hc => hc.1.imp_right fun k => ⟨k, hc.2⟩⟩

theorem Memory.pairwise_erase {m : Memory} (a : Nat) (h : m.Pairwise (fun c d => c.1 < d.1)) :
    (Memory.erase m a).Pairwise (fun c d => c.1 < d.1) := by
  induction m with
  | nil => exact h
  | cons d m ih =>
    obtain ⟨h1, h2⟩ := List.pairwise_cons.1 h
    simp only [Memory.erase]
    split
    · exact ih h2
    · exact List.pairwise_cons.2 ⟨fun c hc => h1 c (Memory.mem_erase.1 hc).1, ih h2⟩

theorem Memory.pairwise_insert {m : Memory} {a : Nat} (v : Byte)
    (h : m.Pairwise (fun c d => c.1 < d.1)) (ha : ∀ c ∈ m, c.1 ≠ a) :
    (Memory.insert m a v).Pairwise (fun c d => c.1 < d.1) := by
  induction m with
  | nil => simp [Memory.insert]
  | cons d m ih =>
    obtain ⟨k, w⟩ := d
    simp only [List.pairwise_cons, List.mem_cons, forall_eq_or_imp] at h ha
    simp only [Memory.insert]
    split
    · rename_i hk
      simp only [List.pairwise_cons, List.mem_cons, forall_eq_or_imp]
      exact ⟨⟨hk, fun c hc => lt_trans hk (h.1 c hc)⟩, h⟩
    · rename_i hk
      refine List.pairwise_cons.2 ⟨fun c hc => ?_, ih h.2 ha.2⟩
      rcases Memory.mem_insert.1 hc with rfl | hc
      · have := ha.1; simp only at this ⊢; omega
      · exact h.1 c hc

/-- A write to an address of the machine keeps the canonical form. -/
theorem Memory.wf_write {font : Vector Byte 80} {m : Memory} (h : Memory.wf font m) {a : Nat} (ha : a < memSize)
    (v : Byte) : Memory.wf font (Memory.write font m a v) := by
  have he : Memory.wf font (Memory.erase m a) :=
    ⟨Memory.pairwise_erase a h.1, fun c hc => h.2 c (Memory.mem_erase.1 hc).1⟩
  have hn : ∀ c ∈ Memory.erase m a, c.1 ≠ a := fun c hc => (Memory.mem_erase.1 hc).2
  unfold Memory.write
  split
  · exact he
  · refine ⟨Memory.pairwise_insert v he.1 hn, fun c hc => ?_⟩
    rcases Memory.mem_insert.1 hc with rfl | hc
    · exact ⟨ha, ‹_›⟩
    · exact he.2 c hc

/-- Loading an image that fits keeps the canonical form. -/
theorem Memory.wf_load {font : Vector Byte 80} (l : List Byte) : ∀ {m : Memory} {a : Nat}, Memory.wf font m →
    a + l.length ≤ memSize → Memory.wf font (Memory.load font m a l) := by
  induction l with
  | nil => intro m a h _; exact h
  | cons b l ih =>
    intro m a h hl
    simp only [List.length_cons] at hl
    exact ih (Memory.wf_write h (by omega) b) (by omega)

/-- What a loaded image reads as: the image at its addresses, the old bytes elsewhere. -/
theorem Memory.read_load (font : Vector Byte 80) (l : List Byte) : ∀ (m : Memory) (a k : Nat),
    Memory.read font (Memory.load font m a l) k =
      if h : a ≤ k ∧ k - a < l.length then l[k - a]'h.2 else Memory.read font m k := by
  induction l with
  | nil => intro m a k; simp [Memory.load]
  | cons b l ih =>
    intro m a k
    rw [Memory.load, ih]
    by_cases h1 : a + 1 ≤ k ∧ k - (a + 1) < l.length
    · have hk : k - a = k - (a + 1) + 1 := by omega
      rw [dif_pos h1, dif_pos ⟨by omega, by simp only [List.length_cons]; omega⟩]
      simp [hk]
    · rw [dif_neg h1, Memory.read_write]
      by_cases h2 : k = a
      · subst h2; simp
      · rw [if_neg h2, dif_neg (by simp only [List.length_cons]; omega)]

end Sys2Proof.Machine
end

