-- ==== Sys2Proof/Laws/State.lean ====
section
/-! SUPPORT. One lemma per field per update of the state: what each named update leaves alone and, where it is a plain
value, what it writes; and the same for the accessors. Later proofs unfold no record update. -/

namespace Sys2Proof.Machine

/-! ### setReg -/

@[simp] theorem State.setReg_v (s : State) (x : RegId) (b : Byte) : (s.setReg x b).v = s.v.set x.val b x.isLt := rfl
@[simp] theorem State.setReg_i (s : State) (x : RegId) (b : Byte) : (s.setReg x b).i = s.i := rfl
@[simp] theorem State.setReg_pc (s : State) (x : RegId) (b : Byte) : (s.setReg x b).pc = s.pc := rfl
@[simp] theorem State.setReg_sp (s : State) (x : RegId) (b : Byte) : (s.setReg x b).sp = s.sp := rfl
@[simp] theorem State.setReg_stack (s : State) (x : RegId) (b : Byte) : (s.setReg x b).stack = s.stack := rfl
@[simp] theorem State.setReg_dt (s : State) (x : RegId) (b : Byte) : (s.setReg x b).dt = s.dt := rfl
@[simp] theorem State.setReg_st (s : State) (x : RegId) (b : Byte) : (s.setReg x b).st = s.st := rfl
@[simp] theorem State.setReg_tone (s : State) (x : RegId) (b : Byte) : (s.setReg x b).tone = s.tone := rfl
@[simp] theorem State.setReg_fb (s : State) (x : RegId) (b : Byte) : (s.setReg x b).fb = s.fb := rfl
@[simp] theorem State.setReg_redraw (s : State) (x : RegId) (b : Byte) : (s.setReg x b).redraw = s.redraw := rfl
@[simp] theorem State.setReg_key (s : State) (x : RegId) (b : Byte) : (s.setReg x b).key = s.key := rfl
@[simp] theorem State.setReg_halted (s : State) (x : RegId) (b : Byte) : (s.setReg x b).halted = s.halted := rfl
@[simp] theorem State.setReg_keywait (s : State) (x : RegId) (b : Byte) : (s.setReg x b).keywait = s.keywait := rfl
@[simp] theorem State.setReg_mem (s : State) (x : RegId) (b : Byte) : (s.setReg x b).mem = s.mem := rfl
@[simp] theorem State.setReg_diag (s : State) (x : RegId) (b : Byte) : (s.setReg x b).diag = s.diag := rfl
@[simp] theorem State.setReg_opc (s : State) (x : RegId) (b : Byte) : (s.setReg x b).opc = s.opc := rfl
@[simp] theorem State.setReg_draws (s : State) (x : RegId) (b : Byte) : (s.setReg x b).draws = s.draws := rfl
@[simp] theorem State.setReg_cfg (s : State) (x : RegId) (b : Byte) : (s.setReg x b).cfg = s.cfg := rfl
@[simp] theorem State.setReg_byteAt (s : State) (x : RegId) (b : Byte) (a : Nat) : (s.setReg x b).byteAt a = s.byteAt a := rfl
@[simp] theorem State.setReg_bound (s : State) (x : RegId) (b : Byte) (a : Nat) : (s.setReg x b).bound a = s.bound a := rfl
@[simp] theorem State.setReg_indexed (s : State) (x : RegId) (b : Byte) (k : Nat) : (s.setReg x b).indexed k = s.indexed k := rfl
@[simp] theorem State.setReg_pixel (s : State) (x : RegId) (b : Byte) (r : Fin 32) (c : Fin 64) : (s.setReg x b).pixel r c = s.pixel r c := rfl
@[simp] theorem State.setReg_fetchWord (s : State) (x : RegId) (b : Byte) : (s.setReg x b).fetchWord = s.fetchWord := rfl
@[simp] theorem State.setReg_pressed (s : State) (x : RegId) (b : Byte) (k : RegId) : (s.setReg x b).pressed k = s.pressed k := rfl
@[simp] theorem State.setReg_leastPressed (s : State) (x : RegId) (b : Byte) : (s.setReg x b).leastPressed = s.leastPressed := rfl

/-! ### setRegFlag -/

@[simp] theorem State.setRegFlag_i (s : State) (x : RegId) (b f : Byte) : (s.setRegFlag x b f).i = s.i := rfl
@[simp] theorem State.setRegFlag_pc (s : State) (x : RegId) (b f : Byte) : (s.setRegFlag x b f).pc = s.pc := rfl
@[simp] theorem State.setRegFlag_sp (s : State) (x : RegId) (b f : Byte) : (s.setRegFlag x b f).sp = s.sp := rfl
@[simp] theorem State.setRegFlag_stack (s : State) (x : RegId) (b f : Byte) : (s.setRegFlag x b f).stack = s.stack := rfl
@[simp] theorem State.setRegFlag_dt (s : State) (x : RegId) (b f : Byte) : (s.setRegFlag x b f).dt = s.dt := rfl
@[simp] theorem State.setRegFlag_st (s : State) (x : RegId) (b f : Byte) : (s.setRegFlag x b f).st = s.st := rfl
@[simp] theorem State.setRegFlag_tone (s : State) (x : RegId) (b f : Byte) : (s.setRegFlag x b f).tone = s.tone := rfl
@[simp] theorem State.setRegFlag_fb (s : State) (x : RegId) (b f : Byte) : (s.setRegFlag x b f).fb = s.fb := rfl
@[simp] theorem State.setRegFlag_redraw (s : State) (x : RegId) (b f : Byte) : (s.setRegFlag x b f).redraw = s.redraw := rfl
@[simp] theorem State.setRegFlag_key (s : State) (x : RegId) (b f : Byte) : (s.setRegFlag x b f).key = s.key := rfl
@[simp] theorem State.setRegFlag_halted (s : State) (x : RegId) (b f : Byte) : (s.setRegFlag x b f).halted = s.halted := rfl
@[simp] theorem State.setRegFlag_keywait (s : State) (x : RegId) (b f : Byte) : (s.setRegFlag x b f).keywait = s.keywait := rfl
@[simp] theorem State.setRegFlag_mem (s : State) (x : RegId) (b f : Byte) : (s.setRegFlag x b f).mem = s.mem := rfl
@[simp] theorem State.setRegFlag_diag (s : State) (x : RegId) (b f : Byte) : (s.setRegFlag x b f).diag = s.diag := rfl
@[simp] theorem State.setRegFlag_opc (s : State) (x : RegId) (b f : Byte) : (s.setRegFlag x b f).opc = s.opc := rfl
@[simp] theorem State.setRegFlag_draws (s : State) (x : RegId) (b f : Byte) : (s.setRegFlag x b f).draws = s.draws := rfl
@[simp] theorem State.setRegFlag_cfg (s : State) (x : RegId) (b f : Byte) : (s.setRegFlag x b f).cfg = s.cfg := rfl
@[simp] theorem State.setRegFlag_byteAt (s : State) (x : RegId) (b f : Byte) (a : Nat) : (s.setRegFlag x b f).byteAt a = s.byteAt a := rfl
@[simp] theorem State.setRegFlag_bound (s : State) (x : RegId) (b f : Byte) (a : Nat) : (s.setRegFlag x b f).bound a = s.bound a := rfl
@[simp] theorem State.setRegFlag_indexed (s : State) (x : RegId) (b f : Byte) (k : Nat) : (s.setRegFlag x b f).indexed k = s.indexed k := rfl
@[simp] theorem State.setRegFlag_pixel (s : State) (x : RegId) (b f : Byte) (r : Fin 32) (c : Fin 64) : (s.setRegFlag x b f).pixel r c = s.pixel r c := rfl
@[simp] theorem State.setRegFlag_fetchWord (s : State) (x : RegId) (b f : Byte) : (s.setRegFlag x b f).fetchWord = s.fetchWord := rfl
@[simp] theorem State.setRegFlag_pressed (s : State) (x : RegId) (b f : Byte) (k : RegId) : (s.setRegFlag x b f).pressed k = s.pressed k := rfl
@[simp] theorem State.setRegFlag_leastPressed (s : State) (x : RegId) (b f : Byte) : (s.setRegFlag x b f).leastPressed = s.leastPressed := rfl

/-! ### setI -/

@[simp] theorem State.setI_v (s : State) (w : Word) : (s.setI w).v = s.v := rfl
@[simp] theorem State.setI_i (s : State) (w : Word) : (s.setI w).i = w := rfl
@[simp] theorem State.setI_pc (s : State) (w : Word) : (s.setI w).pc = s.pc := rfl
@[simp] theorem State.setI_sp (s : State) (w : Word) : (s.setI w).sp = s.sp := rfl
@[simp] theorem State.setI_stack (s : State) (w : Word) : (s.setI w).stack = s.stack := rfl
@[simp] theorem State.setI_dt (s : State) (w : Word) : (s.setI w).dt = s.dt := rfl
@[simp] theorem State.setI_st (s : State) (w : Word) : (s.setI w).st = s.st := rfl
@[simp] theorem State.setI_tone (s : State) (w : Word) : (s.setI w).tone = s.tone := rfl
@[simp] theorem State.setI_fb (s : State) (w : Word) : (s.setI w).fb = s.fb := rfl
@[simp] theorem State.setI_redraw (s : State) (w : Word) : (s.setI w).redraw = s.redraw := rfl
@[simp] theorem State.setI_key (s : State) (w : Word) : (s.setI w).key = s.key := rfl
@[simp] theorem State.setI_halted (s : State) (w : Word) : (s.setI w).halted = s.halted := rfl
@[simp] theorem State.setI_keywait (s : State) (w : Word) : (s.setI w).keywait = s.keywait := rfl
@[simp] theorem State.setI_mem (s : State) (w : Word) : (s.setI w).mem = s.mem := rfl
@[simp] theorem State.setI_diag (s : State) (w : Word) : (s.setI w).diag = s.diag := rfl
@[simp] theorem State.setI_opc (s : State) (w : Word) : (s.setI w).opc = s.opc := rfl
@[simp] theorem State.setI_draws (s : State) (w : Word) : (s.setI w).draws = s.draws := rfl
@[simp] theorem State.setI_cfg (s : State) (w : Word) : (s.setI w).cfg = s.cfg := rfl
@[simp] theorem State.setI_reg (s : State) (w : Word) (r : RegId) : (s.setI w).reg r = s.reg r := rfl
@[simp] theorem State.setI_byteAt (s : State) (w : Word) (a : Nat) : (s.setI w).byteAt a = s.byteAt a := rfl
@[simp] theorem State.setI_bound (s : State) (w : Word) (a : Nat) : (s.setI w).bound a = s.bound a := rfl
@[simp] theorem State.setI_pixel (s : State) (w : Word) (r : Fin 32) (c : Fin 64) : (s.setI w).pixel r c = s.pixel r c := rfl
@[simp] theorem State.setI_fetchWord (s : State) (w : Word) : (s.setI w).fetchWord = s.fetchWord := rfl
@[simp] theorem State.setI_pressed (s : State) (w : Word) (k : RegId) : (s.setI w).pressed k = s.pressed k := rfl
@[simp] theorem State.setI_keySelect (s : State) (w : Word) (x : RegId) : (s.setI w).keySelect x = s.keySelect x := rfl
@[simp] theorem State.setI_leastPressed (s : State) (w : Word) : (s.setI w).leastPressed = s.leastPressed := rfl

/-! ### raise -/

@[simp] theorem State.raise_v (s : State) (d : Diag) : (s.raise d).v = s.v := rfl
@[simp] theorem State.raise_i (s : State) (d : Diag) : (s.raise d).i = s.i := rfl
@[simp] theorem State.raise_pc (s : State) (d : Diag) : (s.raise d).pc = s.pc := rfl
@[simp] theorem State.raise_sp (s : State) (d : Diag) : (s.raise d).sp = s.sp := rfl
@[simp] theorem State.raise_stack (s : State) (d : Diag) : (s.raise d).stack = s.stack := rfl
@[simp] theorem State.raise_dt (s : State) (d : Diag) : (s.raise d).dt = s.dt := rfl
@[simp] theorem State.raise_st (s : State) (d : Diag) : (s.raise d).st = s.st := rfl
@[simp] theorem State.raise_tone (s : State) (d : Diag) : (s.raise d).tone = s.tone := rfl
@[simp] theorem State.raise_fb (s : State) (d : Diag) : (s.raise d).fb = s.fb := rfl
@[simp] theorem State.raise_redraw (s : State) (d : Diag) : (s.raise d).redraw = s.redraw := rfl
@[simp] theorem State.raise_key (s : State) (d : Diag) : (s.raise d).key = s.key := rfl
@[simp] theorem State.raise_halted (s : State) (d : Diag) : (s.raise d).halted = s.halted := rfl
@[simp] theorem State.raise_keywait (s : State) (d : Diag) : (s.raise d).keywait = s.keywait := rfl
@[simp] theorem State.raise_mem (s : State) (d : Diag) : (s.raise d).mem = s.mem := rfl
@[simp] theorem State.raise_diag (s : State) (d : Diag) : (s.raise d).diag = s.diag ++ [d] := rfl
@[simp] theorem State.raise_opc (s : State) (d : Diag) : (s.raise d).opc = s.opc := rfl
@[simp] theorem State.raise_draws (s : State) (d : Diag) : (s.raise d).draws = s.draws := rfl
@[simp] theorem State.raise_cfg (s : State) (d : Diag) : (s.raise d).cfg = s.cfg := rfl
@[simp] theorem State.raise_reg (s : State) (d : Diag) (r : RegId) : (s.raise d).reg r = s.reg r := rfl
@[simp] theorem State.raise_byteAt (s : State) (d : Diag) (a : Nat) : (s.raise d).byteAt a = s.byteAt a := rfl
@[simp] theorem State.raise_bound (s : State) (d : Diag) (a : Nat) : (s.raise d).bound a = s.bound a := rfl
@[simp] theorem State.raise_indexed (s : State) (d : Diag) (k : Nat) : (s.raise d).indexed k = s.indexed k := rfl
@[simp] theorem State.raise_pixel (s : State) (d : Diag) (r : Fin 32) (c : Fin 64) : (s.raise d).pixel r c = s.pixel r c := rfl
@[simp] theorem State.raise_fetchWord (s : State) (d : Diag) : (s.raise d).fetchWord = s.fetchWord := rfl
@[simp] theorem State.raise_pressed (s : State) (d : Diag) (k : RegId) : (s.raise d).pressed k = s.pressed k := rfl
@[simp] theorem State.raise_keySelect (s : State) (d : Diag) (x : RegId) : (s.raise d).keySelect x = s.keySelect x := rfl
@[simp] theorem State.raise_leastPressed (s : State) (d : Diag) : (s.raise d).leastPressed = s.leastPressed := rfl

/-! ### noteAddr -/

@[simp] theorem State.noteAddr_v (s : State) (n : Nat) : (s.noteAddr n).v = s.v := by unfold State.noteAddr; split <;> rfl
@[simp] theorem State.noteAddr_i (s : State) (n : Nat) : (s.noteAddr n).i = s.i := by unfold State.noteAddr; split <;> rfl
@[simp] theorem State.noteAddr_pc (s : State) (n : Nat) : (s.noteAddr n).pc = s.pc := by unfold State.noteAddr; split <;> rfl
@[simp] theorem State.noteAddr_sp (s : State) (n : Nat) : (s.noteAddr n).sp = s.sp := by unfold State.noteAddr; split <;> rfl
@[simp] theorem State.noteAddr_stack (s : State) (n : Nat) : (s.noteAddr n).stack = s.stack := by unfold State.noteAddr; split <;> rfl
@[simp] theorem State.noteAddr_dt (s : State) (n : Nat) : (s.noteAddr n).dt = s.dt := by unfold State.noteAddr; split <;> rfl
@[simp] theorem State.noteAddr_st (s : State) (n : Nat) : (s.noteAddr n).st = s.st := by unfold State.noteAddr; split <;> rfl
@[simp] theorem State.noteAddr_tone (s : State) (n : Nat) : (s.noteAddr n).tone = s.tone := by unfold State.noteAddr; split <;> rfl
@[simp] theorem State.noteAddr_fb (s : State) (n : Nat) : (s.noteAddr n).fb = s.fb := by unfold State.noteAddr; split <;> rfl
@[simp] theorem State.noteAddr_redraw (s : State) (n : Nat) : (s.noteAddr n).redraw = s.redraw := by unfold State.noteAddr; split <;> rfl
@[simp] theorem State.noteAddr_key (s : State) (n : Nat) : (s.noteAddr n).key = s.key := by unfold State.noteAddr; split <;> rfl
@[simp] theorem State.noteAddr_halted (s : State) (n : Nat) : (s.noteAddr n).halted = s.halted := by unfold State.noteAddr; split <;> rfl
@[simp] theorem State.noteAddr_keywait (s : State) (n : Nat) : (s.noteAddr n).keywait = s.keywait := by unfold State.noteAddr; split <;> rfl
@[simp] theorem State.noteAddr_mem (s : State) (n : Nat) : (s.noteAddr n).mem = s.mem := by unfold State.noteAddr; split <;> rfl
@[simp] theorem State.noteAddr_opc (s : State) (n : Nat) : (s.noteAddr n).opc = s.opc := by unfold State.noteAddr; split <;> rfl
@[simp] theorem State.noteAddr_draws (s : State) (n : Nat) : (s.noteAddr n).draws = s.draws := by unfold State.noteAddr; split <;> rfl
@[simp] theorem State.noteAddr_cfg (s : State) (n : Nat) : (s.noteAddr n).cfg = s.cfg := by unfold State.noteAddr; split <;> rfl
@[simp] theorem State.noteAddr_reg (s : State) (n : Nat) (r : RegId) : (s.noteAddr n).reg r = s.reg r := by simp only [State.reg, State.noteAddr_v]
@[simp] theorem State.noteAddr_byteAt (s : State) (n : Nat) (a : Nat) : (s.noteAddr n).byteAt a = s.byteAt a := by simp only [State.byteAt, State.noteAddr_mem, State.noteAddr_cfg]
@[simp] theorem State.noteAddr_bound (s : State) (n : Nat) (a : Nat) : (s.noteAddr n).bound a = s.bound a := by simp only [State.bound, State.noteAddr_cfg]
@[simp] theorem State.noteAddr_indexed (s : State) (n : Nat) (k : Nat) : (s.noteAddr n).indexed k = s.indexed k := by simp only [State.indexed, State.noteAddr_i]
@[simp] theorem State.noteAddr_pixel (s : State) (n : Nat) (r : Fin 32) (c : Fin 64) : (s.noteAddr n).pixel r c = s.pixel r c := by simp only [State.pixel, State.noteAddr_fb]
@[simp] theorem State.noteAddr_fetchWord (s : State) (n : Nat) : (s.noteAddr n).fetchWord = s.fetchWord := by simp only [State.fetchWord, State.byteAt, State.bound, State.noteAddr_pc, State.noteAddr_mem, State.noteAddr_cfg]
@[simp] theorem State.noteAddr_pressed (s : State) (n : Nat) (k : RegId) : (s.noteAddr n).pressed k = s.pressed k := by simp only [State.pressed, State.noteAddr_key]
@[simp] theorem State.noteAddr_keySelect (s : State) (n : Nat) (x : RegId) : (s.noteAddr n).keySelect x = s.keySelect x := by simp only [State.keySelect, State.reg, State.noteAddr_v]
@[simp] theorem State.noteAddr_leastPressed (s : State) (n : Nat) : (s.noteAddr n).leastPressed = s.leastPressed := by simp only [State.leastPressed, State.noteAddr_key]

/-! ### memWrite -/

@[simp] theorem State.memWrite_v (s : State) (n : Nat) (b : Byte) : (s.memWrite n b).v = s.v := State.noteAddr_v s n
@[simp] theorem State.memWrite_i (s : State) (n : Nat) (b : Byte) : (s.memWrite n b).i = s.i := State.noteAddr_i s n
@[simp] theorem State.memWrite_pc (s : State) (n : Nat) (b : Byte) : (s.memWrite n b).pc = s.pc := State.noteAddr_pc s n
@[simp] theorem State.memWrite_sp (s : State) (n : Nat) (b : Byte) : (s.memWrite n b).sp = s.sp := State.noteAddr_sp s n
@[simp] theorem State.memWrite_stack (s : State) (n : Nat) (b : Byte) : (s.memWrite n b).stack = s.stack := State.noteAddr_stack s n
@[simp] theorem State.memWrite_dt (s : State) (n : Nat) (b : Byte) : (s.memWrite n b).dt = s.dt := State.noteAddr_dt s n
@[simp] theorem State.memWrite_st (s : State) (n : Nat) (b : Byte) : (s.memWrite n b).st = s.st := State.noteAddr_st s n
@[simp] theorem State.memWrite_tone (s : State) (n : Nat) (b : Byte) : (s.memWrite n b).tone = s.tone := State.noteAddr_tone s n
@[simp] theorem State.memWrite_fb (s : State) (n : Nat) (b : Byte) : (s.memWrite n b).fb = s.fb := State.noteAddr_fb s n
@[simp] theorem State.memWrite_redraw (s : State) (n : Nat) (b : Byte) : (s.memWrite n b).redraw = s.redraw := State.noteAddr_redraw s n
@[simp] theorem State.memWrite_key (s : State) (n : Nat) (b : Byte) : (s.memWrite n b).key = s.key := State.noteAddr_key s n
@[simp] theorem State.memWrite_halted (s : State) (n : Nat) (b : Byte) : (s.memWrite n b).halted = s.halted := State.noteAddr_halted s n
@[simp] theorem State.memWrite_keywait (s : State) (n : Nat) (b : Byte) : (s.memWrite n b).keywait = s.keywait := State.noteAddr_keywait s n
@[simp] theorem State.memWrite_mem (s : State) (n : Nat) (b : Byte) : (s.memWrite n b).mem = Memory.write s.cfg.font s.mem (s.bound n) b := rfl
@[simp] theorem State.memWrite_opc (s : State) (n : Nat) (b : Byte) : (s.memWrite n b).opc = s.opc := State.noteAddr_opc s n
@[simp] theorem State.memWrite_draws (s : State) (n : Nat) (b : Byte) : (s.memWrite n b).draws = s.draws := State.noteAddr_draws s n
@[simp] theorem State.memWrite_cfg (s : State) (n : Nat) (b : Byte) : (s.memWrite n b).cfg = s.cfg := State.noteAddr_cfg s n
@[simp] theorem State.memWrite_reg (s : State) (n : Nat) (b : Byte) (r : RegId) : (s.memWrite n b).reg r = s.reg r := by simp only [State.reg, State.memWrite_v]
@[simp] theorem State.memWrite_bound (s : State) (n : Nat) (b : Byte) (a : Nat) : (s.memWrite n b).bound a = s.bound a := by simp only [State.bound, State.memWrite_cfg]
@[simp] theorem State.memWrite_indexed (s : State) (n : Nat) (b : Byte) (k : Nat) : (s.memWrite n b).indexed k = s.indexed k := by simp only [State.indexed, State.memWrite_i]
@[simp] theorem State.memWrite_pixel (s : State) (n : Nat) (b : Byte) (r : Fin 32) (c : Fin 64) : (s.memWrite n b).pixel r c = s.pixel r c := by simp only [State.pixel, State.memWrite_fb]
@[simp] theorem State.memWrite_pressed (s : State) (n : Nat) (b : Byte) (k : RegId) : (s.memWrite n b).pressed k = s.pressed k := by simp only [State.pressed, State.memWrite_key]
@[simp] theorem State.memWrite_keySelect (s : State) (n : Nat) (b : Byte) (x : RegId) : (s.memWrite n b).keySelect x = s.keySelect x := by simp only [State.keySelect, State.reg, State.memWrite_v]
@[simp] theorem State.memWrite_leastPressed (s : State) (n : Nat) (b : Byte) : (s.memWrite n b).leastPressed = s.leastPressed := by simp only [State.leastPressed, State.memWrite_key]

/-! ### advance -/

@[simp] theorem State.advance_v (s : State) (f : Flow) : (s.advance f).v = s.v := by cases f <;> rfl
@[simp] theorem State.advance_i (s : State) (f : Flow) : (s.advance f).i = s.i := by cases f <;> rfl
@[simp] theorem State.advance_sp (s : State) (f : Flow) : (s.advance f).sp = s.sp := by cases f <;> rfl
@[simp] theorem State.advance_stack (s : State) (f : Flow) : (s.advance f).stack = s.stack := by cases f <;> rfl
@[simp] theorem State.advance_dt (s : State) (f : Flow) : (s.advance f).dt = s.dt := by cases f <;> rfl
@[simp] theorem State.advance_st (s : State) (f : Flow) : (s.advance f).st = s.st := by cases f <;> rfl
@[simp] theorem State.advance_tone (s : State) (f : Flow) : (s.advance f).tone = s.tone := by cases f <;> rfl
@[simp] theorem State.advance_fb (s : State) (f : Flow) : (s.advance f).fb = s.fb := by cases f <;> rfl
@[simp] theorem State.advance_redraw (s : State) (f : Flow) : (s.advance f).redraw = s.redraw := by cases f <;> rfl
@[simp] theorem State.advance_key (s : State) (f : Flow) : (s.advance f).key = s.key := by cases f <;> rfl
@[simp] theorem State.advance_keywait (s : State) (f : Flow) : (s.advance f).keywait = s.keywait := by cases f <;> rfl
@[simp] theorem State.advance_mem (s : State) (f : Flow) : (s.advance f).mem = s.mem := by cases f <;> rfl
@[simp] theorem State.advance_diag (s : State) (f : Flow) : (s.advance f).diag = s.diag := by cases f <;> rfl
@[simp] theorem State.advance_opc (s : State) (f : Flow) : (s.advance f).opc = s.opc := by cases f <;> rfl
@[simp] theorem State.advance_draws (s : State) (f : Flow) : (s.advance f).draws = s.draws := by cases f <;> rfl
@[simp] theorem State.advance_cfg (s : State) (f : Flow) : (s.advance f).cfg = s.cfg := by cases f <;> rfl
@[simp] theorem State.advance_reg (s : State) (f : Flow) (r : RegId) : (s.advance f).reg r = s.reg r := by simp only [State.reg, State.advance_v]
@[simp] theorem State.advance_byteAt (s : State) (f : Flow) (a : Nat) : (s.advance f).byteAt a = s.byteAt a := by simp only [State.byteAt, State.advance_mem, State.advance_cfg]
@[simp] theorem State.advance_bound (s : State) (f : Flow) (a : Nat) : (s.advance f).bound a = s.bound a := by simp only [State.bound, State.advance_cfg]
@[simp] theorem State.advance_indexed (s : State) (f : Flow) (k : Nat) : (s.advance f).indexed k = s.indexed k := by simp only [State.indexed, State.advance_i]
@[simp] theorem State.advance_pixel (s : State) (f : Flow) (r : Fin 32) (c : Fin 64) : (s.advance f).pixel r c = s.pixel r c := by simp only [State.pixel, State.advance_fb]
@[simp] theorem State.advance_pressed (s : State) (f : Flow) (k : RegId) : (s.advance f).pressed k = s.pressed k := by simp only [State.pressed, State.advance_key]
@[simp] theorem State.advance_keySelect (s : State) (f : Flow) (x : RegId) : (s.advance f).keySelect x = s.keySelect x := by simp only [State.keySelect, State.reg, State.advance_v]
@[simp] theorem State.advance_leastPressed (s : State) (f : Flow) : (s.advance f).leastPressed = s.leastPressed := by simp only [State.leastPressed, State.advance_key]

/-! ### drawByte -/

@[simp] theorem State.drawByte_v (s : State) : (s.drawByte.2).v = s.v := rfl
@[simp] theorem State.drawByte_i (s : State) : (s.drawByte.2).i = s.i := rfl
@[simp] theorem State.drawByte_pc (s : State) : (s.drawByte.2).pc = s.pc := rfl
@[simp] theorem State.drawByte_sp (s : State) : (s.drawByte.2).sp = s.sp := rfl
@[simp] theorem State.drawByte_stack (s : State) : (s.drawByte.2).stack = s.stack := rfl
@[simp] theorem State.drawByte_dt (s : State) : (s.drawByte.2).dt = s.dt := rfl
@[simp] theorem State.drawByte_st (s : State) : (s.drawByte.2).st = s.st := rfl
@[simp] theorem State.drawByte_tone (s : State) : (s.drawByte.2).tone = s.tone := rfl
@[simp] theorem State.drawByte_fb (s : State) : (s.drawByte.2).fb = s.fb := rfl
@[simp] theorem State.drawByte_redraw (s : State) : (s.drawByte.2).redraw = s.redraw := rfl
@[simp] theorem State.drawByte_key (s : State) : (s.drawByte.2).key = s.key := rfl
@[simp] theorem State.drawByte_halted (s : State) : (s.drawByte.2).halted = s.halted := rfl
@[simp] theorem State.drawByte_keywait (s : State) : (s.drawByte.2).keywait = s.keywait := rfl
@[simp] theorem State.drawByte_mem (s : State) : (s.drawByte.2).mem = s.mem := rfl
@[simp] theorem State.drawByte_diag (s : State) : (s.drawByte.2).diag = s.diag := rfl
@[simp] theorem State.drawByte_opc (s : State) : (s.drawByte.2).opc = s.opc := rfl
@[simp] theorem State.drawByte_draws (s : State) : (s.drawByte.2).draws = s.draws + 1 := rfl
@[simp] theorem State.drawByte_cfg (s : State) : (s.drawByte.2).cfg = s.cfg := rfl
@[simp] theorem State.drawByte_reg (s : State) (r : RegId) : (s.drawByte.2).reg r = s.reg r := rfl
@[simp] theorem State.drawByte_byteAt (s : State) (a : Nat) : (s.drawByte.2).byteAt a = s.byteAt a := rfl
@[simp] theorem State.drawByte_bound (s : State) (a : Nat) : (s.drawByte.2).bound a = s.bound a := rfl
@[simp] theorem State.drawByte_indexed (s : State) (k : Nat) : (s.drawByte.2).indexed k = s.indexed k := rfl
@[simp] theorem State.drawByte_pixel (s : State) (r : Fin 32) (c : Fin 64) : (s.drawByte.2).pixel r c = s.pixel r c := rfl
@[simp] theorem State.drawByte_fetchWord (s : State) : (s.drawByte.2).fetchWord = s.fetchWord := rfl
@[simp] theorem State.drawByte_pressed (s : State) (k : RegId) : (s.drawByte.2).pressed k = s.pressed k := rfl
@[simp] theorem State.drawByte_keySelect (s : State) (x : RegId) : (s.drawByte.2).keySelect x = s.keySelect x := rfl
@[simp] theorem State.drawByte_leastPressed (s : State) : (s.drawByte.2).leastPressed = s.leastPressed := rfl

/-! ### clearDiag -/

@[simp] theorem State.clearDiag_v (s : State) : (s.clearDiag).v = s.v := rfl
@[simp] theorem State.clearDiag_i (s : State) : (s.clearDiag).i = s.i := rfl
@[simp] theorem State.clearDiag_pc (s : State) : (s.clearDiag).pc = s.pc := rfl
@[simp] theorem State.clearDiag_sp (s : State) : (s.clearDiag).sp = s.sp := rfl
@[simp] theorem State.clearDiag_stack (s : State) : (s.clearDiag).stack = s.stack := rfl
@[simp] theorem State.clearDiag_dt (s : State) : (s.clearDiag).dt = s.dt := rfl
@[simp] theorem State.clearDiag_st (s : State) : (s.clearDiag).st = s.st := rfl
@[simp] theorem State.clearDiag_tone (s : State) : (s.clearDiag).tone = s.tone := rfl
@[simp] theorem State.clearDiag_fb (s : State) : (s.clearDiag).fb = s.fb := rfl
@[simp] theorem State.clearDiag_redraw (s : State) : (s.clearDiag).redraw = s.redraw := rfl
@[simp] theorem State.clearDiag_key (s : State) : (s.clearDiag).key = s.key := rfl
@[simp] theorem State.clearDiag_halted (s : State) : (s.clearDiag).halted = s.halted := rfl
@[simp] theorem State.clearDiag_keywait (s : State) : (s.clearDiag).keywait = s.keywait := rfl
@[simp] theorem State.clearDiag_mem (s : State) : (s.clearDiag).mem = s.mem := rfl
@[simp] theorem State.clearDiag_diag (s : State) : (s.clearDiag).diag = [] := rfl
@[simp] theorem State.clearDiag_opc (s : State) : (s.clearDiag).opc = s.opc := rfl
@[simp] theorem State.clearDiag_draws (s : State) : (s.clearDiag).draws = s.draws := rfl
@[simp] theorem State.clearDiag_cfg (s : State) : (s.clearDiag).cfg = s.cfg := rfl
@[simp] theorem State.clearDiag_reg (s : State) (r : RegId) : (s.clearDiag).reg r = s.reg r := rfl
@[simp] theorem State.clearDiag_byteAt (s : State) (a : Nat) : (s.clearDiag).byteAt a = s.byteAt a := rfl
@[simp] theorem State.clearDiag_bound (s : State) (a : Nat) : (s.clearDiag).bound a = s.bound a := rfl
@[simp] theorem State.clearDiag_indexed (s : State) (k : Nat) : (s.clearDiag).indexed k = s.indexed k := rfl
@[simp] theorem State.clearDiag_pixel (s : State) (r : Fin 32) (c : Fin 64) : (s.clearDiag).pixel r c = s.pixel r c := rfl
@[simp] theorem State.clearDiag_fetchWord (s : State) : (s.clearDiag).fetchWord = s.fetchWord := rfl
@[simp] theorem State.clearDiag_pressed (s : State) (k : RegId) : (s.clearDiag).pressed k = s.pressed k := rfl
@[simp] theorem State.clearDiag_keySelect (s : State) (x : RegId) : (s.clearDiag).keySelect x = s.keySelect x := rfl
@[simp] theorem State.clearDiag_leastPressed (s : State) : (s.clearDiag).leastPressed = s.leastPressed := rfl

/-! ### fetch -/

@[simp] theorem State.fetch_v (s : State) : (s.fetch).v = s.v := (State.noteAddr_v _ _).trans (State.noteAddr_v _ _)
@[simp] theorem State.fetch_i (s : State) : (s.fetch).i = s.i := (State.noteAddr_i _ _).trans (State.noteAddr_i _ _)
@[simp] theorem State.fetch_pc (s : State) : (s.fetch).pc = s.pc := (State.noteAddr_pc _ _).trans (State.noteAddr_pc _ _)
@[simp] theorem State.fetch_sp (s : State) : (s.fetch).sp = s.sp := (State.noteAddr_sp _ _).trans (State.noteAddr_sp _ _)
@[simp] theorem State.fetch_stack (s : State) : (s.fetch).stack = s.stack := (State.noteAddr_stack _ _).trans (State.noteAddr_stack _ _)
@[simp] theorem State.fetch_dt (s : State) : (s.fetch).dt = s.dt := (State.noteAddr_dt _ _).trans (State.noteAddr_dt _ _)
@[simp] theorem State.fetch_st (s : State) : (s.fetch).st = s.st := (State.noteAddr_st _ _).trans (State.noteAddr_st _ _)
@[simp] theorem State.fetch_tone (s : State) : (s.fetch).tone = s.tone := (State.noteAddr_tone _ _).trans (State.noteAddr_tone _ _)
@[simp] theorem State.fetch_fb (s : State) : (s.fetch).fb = s.fb := (State.noteAddr_fb _ _).trans (State.noteAddr_fb _ _)
@[simp] theorem State.fetch_redraw (s : State) : (s.fetch).redraw = s.redraw := (State.noteAddr_redraw _ _).trans (State.noteAddr_redraw _ _)
@[simp] theorem State.fetch_key (s : State) : (s.fetch).key = s.key := (State.noteAddr_key _ _).trans (State.noteAddr_key _ _)
@[simp] theorem State.fetch_halted (s : State) : (s.fetch).halted = s.halted := (State.noteAddr_halted _ _).trans (State.noteAddr_halted _ _)
@[simp] theorem State.fetch_keywait (s : State) : (s.fetch).keywait = s.keywait := (State.noteAddr_keywait _ _).trans (State.noteAddr_keywait _ _)
@[simp] theorem State.fetch_mem (s : State) : (s.fetch).mem = s.mem := (State.noteAddr_mem _ _).trans (State.noteAddr_mem _ _)
@[simp] theorem State.fetch_draws (s : State) : (s.fetch).draws = s.draws := (State.noteAddr_draws _ _).trans (State.noteAddr_draws _ _)
@[simp] theorem State.fetch_cfg (s : State) : (s.fetch).cfg = s.cfg := (State.noteAddr_cfg _ _).trans (State.noteAddr_cfg _ _)
@[simp] theorem State.fetch_reg (s : State) (r : RegId) : (s.fetch).reg r = s.reg r := by simp only [State.reg, State.fetch_v]
@[simp] theorem State.fetch_byteAt (s : State) (a : Nat) : (s.fetch).byteAt a = s.byteAt a := by simp only [State.byteAt, State.fetch_mem, State.fetch_cfg]
@[simp] theorem State.fetch_bound (s : State) (a : Nat) : (s.fetch).bound a = s.bound a := by simp only [State.bound, State.fetch_cfg]
@[simp] theorem State.fetch_indexed (s : State) (k : Nat) : (s.fetch).indexed k = s.indexed k := by simp only [State.indexed, State.fetch_i]
@[simp] theorem State.fetch_pixel (s : State) (r : Fin 32) (c : Fin 64) : (s.fetch).pixel r c = s.pixel r c := by simp only [State.pixel, State.fetch_fb]
@[simp] theorem State.fetch_fetchWord (s : State) : (s.fetch).fetchWord = s.fetchWord := by simp only [State.fetchWord, State.byteAt, State.bound, State.fetch_pc, State.fetch_mem, State.fetch_cfg]
@[simp] theorem State.fetch_pressed (s : State) (k : RegId) : (s.fetch).pressed k = s.pressed k := by simp only [State.pressed, State.fetch_key]
@[simp] theorem State.fetch_keySelect (s : State) (x : RegId) : (s.fetch).keySelect x = s.keySelect x := by simp only [State.keySelect, State.reg, State.fetch_v]
@[simp] theorem State.fetch_leastPressed (s : State) : (s.fetch).leastPressed = s.leastPressed := by simp only [State.leastPressed, State.fetch_key]

/-! ### tick -/

@[simp] theorem State.tick_v (s : State) : (s.tick).v = s.v := rfl
@[simp] theorem State.tick_i (s : State) : (s.tick).i = s.i := rfl
@[simp] theorem State.tick_pc (s : State) : (s.tick).pc = s.pc := rfl
@[simp] theorem State.tick_sp (s : State) : (s.tick).sp = s.sp := rfl
@[simp] theorem State.tick_stack (s : State) : (s.tick).stack = s.stack := rfl
@[simp] theorem State.tick_fb (s : State) : (s.tick).fb = s.fb := rfl
@[simp] theorem State.tick_redraw (s : State) : (s.tick).redraw = s.redraw := rfl
@[simp] theorem State.tick_key (s : State) : (s.tick).key = s.key := rfl
@[simp] theorem State.tick_halted (s : State) : (s.tick).halted = s.halted := rfl
@[simp] theorem State.tick_keywait (s : State) : (s.tick).keywait = s.keywait := rfl
@[simp] theorem State.tick_mem (s : State) : (s.tick).mem = s.mem := rfl
@[simp] theorem State.tick_diag (s : State) : (s.tick).diag = s.diag := rfl
@[simp] theorem State.tick_opc (s : State) : (s.tick).opc = s.opc := rfl
@[simp] theorem State.tick_draws (s : State) : (s.tick).draws = s.draws := rfl
@[simp] theorem State.tick_cfg (s : State) : (s.tick).cfg = s.cfg := rfl
@[simp] theorem State.tick_reg (s : State) (r : RegId) : (s.tick).reg r = s.reg r := rfl
@[simp] theorem State.tick_byteAt (s : State) (a : Nat) : (s.tick).byteAt a = s.byteAt a := rfl
@[simp] theorem State.tick_bound (s : State) (a : Nat) : (s.tick).bound a = s.bound a := rfl
@[simp] theorem State.tick_indexed (s : State) (k : Nat) : (s.tick).indexed k = s.indexed k := rfl
@[simp] theorem State.tick_pixel (s : State) (r : Fin 32) (c : Fin 64) : (s.tick).pixel r c = s.pixel r c := rfl
@[simp] theorem State.tick_fetchWord (s : State) : (s.tick).fetchWord = s.fetchWord := rfl
@[simp] theorem State.tick_pressed (s : State) (k : RegId) : (s.tick).pressed k = s.pressed k := rfl
@[simp] theorem State.tick_keySelect (s : State) (x : RegId) : (s.tick).keySelect x = s.keySelect x := rfl
@[simp] theorem State.tick_leastPressed (s : State) : (s.tick).leastPressed = s.leastPressed := rfl

/-! ### markRedraw -/

@[simp] theorem State.markRedraw_v (s : State) : (s.markRedraw).v = s.v := rfl
@[simp] theorem State.markRedraw_i (s : State) : (s.markRedraw).i = s.i := rfl
@[simp] theorem State.markRedraw_pc (s : State) : (s.markRedraw).pc = s.pc := rfl
@[simp] theorem State.markRedraw_sp (s : State) : (s.markRedraw).sp = s.sp := rfl
@[simp] theorem State.markRedraw_stack (s : State) : (s.markRedraw).stack = s.stack := rfl
@[simp] theorem State.markRedraw_dt (s : State) : (s.markRedraw).dt = s.dt := rfl
@[simp] theorem State.markRedraw_st (s : State) : (s.markRedraw).st = s.st := rfl
@[simp] theorem State.markRedraw_tone (s : State) : (s.markRedraw).tone = s.tone := rfl
@[simp] theorem State.markRedraw_fb (s : State) : (s.markRedraw).fb = s.fb := rfl
@[simp] theorem State.markRedraw_redraw (s : State) : (s.markRedraw).redraw = true := rfl
@[simp] theorem State.markRedraw_key (s : State) : (s.markRedraw).key = s.key := rfl
@[simp] theorem State.markRedraw_halted (s : State) : (s.markRedraw).halted = s.halted := rfl
@[simp] theorem State.markRedraw_keywait (s : State) : (s.markRedraw).keywait = s.keywait := rfl
@[simp] theorem State.markRedraw_mem (s : State) : (s.markRedraw).mem = s.mem := rfl
@[simp] theorem State.markRedraw_diag (s : State) : (s.markRedraw).diag = s.diag := rfl
@[simp] theorem State.markRedraw_opc (s : State) : (s.markRedraw).opc = s.opc := rfl
@[simp] theorem State.markRedraw_draws (s : State) : (s.markRedraw).draws = s.draws := rfl
@[simp] theorem State.markRedraw_cfg (s : State) : (s.markRedraw).cfg = s.cfg := rfl
@[simp] theorem State.markRedraw_reg (s : State) (r : RegId) : (s.markRedraw).reg r = s.reg r := rfl
@[simp] theorem State.markRedraw_byteAt (s : State) (a : Nat) : (s.markRedraw).byteAt a = s.byteAt a := rfl
@[simp] theorem State.markRedraw_bound (s : State) (a : Nat) : (s.markRedraw).bound a = s.bound a := rfl
@[simp] theorem State.markRedraw_indexed (s : State) (k : Nat) : (s.markRedraw).indexed k = s.indexed k := rfl
@[simp] theorem State.markRedraw_pixel (s : State) (r : Fin 32) (c : Fin 64) : (s.markRedraw).pixel r c = s.pixel r c := rfl
@[simp] theorem State.markRedraw_fetchWord (s : State) : (s.markRedraw).fetchWord = s.fetchWord := rfl
@[simp] theorem State.markRedraw_pressed (s : State) (k : RegId) : (s.markRedraw).pressed k = s.pressed k := rfl
@[simp] theorem State.markRedraw_keySelect (s : State) (x : RegId) : (s.markRedraw).keySelect x = s.keySelect x := rfl
@[simp] theorem State.markRedraw_leastPressed (s : State) : (s.markRedraw).leastPressed = s.leastPressed := rfl

/-! ### place -/

@[simp] theorem State.place_v (s : State) (n : Nat) (b : Byte) : (s.place n b).v = s.v := rfl
@[simp] theorem State.place_i (s : State) (n : Nat) (b : Byte) : (s.place n b).i = s.i := rfl
@[simp] theorem State.place_pc (s : State) (n : Nat) (b : Byte) : (s.place n b).pc = s.pc := rfl
@[simp] theorem State.place_sp (s : State) (n : Nat) (b : Byte) : (s.place n b).sp = s.sp := rfl
@[simp] theorem State.place_stack (s : State) (n : Nat) (b : Byte) : (s.place n b).stack = s.stack := rfl
@[simp] theorem State.place_dt (s : State) (n : Nat) (b : Byte) : (s.place n b).dt = s.dt := rfl
@[simp] theorem State.place_st (s : State) (n : Nat) (b : Byte) : (s.place n b).st = s.st := rfl
@[simp] theorem State.place_tone (s : State) (n : Nat) (b : Byte) : (s.place n b).tone = s.tone := rfl
@[simp] theorem State.place_fb (s : State) (n : Nat) (b : Byte) : (s.place n b).fb = s.fb := rfl
@[simp] theorem State.place_redraw (s : State) (n : Nat) (b : Byte) : (s.place n b).redraw = s.redraw := rfl
@[simp] theorem State.place_key (s : State) (n : Nat) (b : Byte) : (s.place n b).key = s.key := rfl
@[simp] theorem State.place_halted (s : State) (n : Nat) (b : Byte) : (s.place n b).halted = s.halted := rfl
@[simp] theorem State.place_keywait (s : State) (n : Nat) (b : Byte) : (s.place n b).keywait = s.keywait := rfl
@[simp] theorem State.place_mem (s : State) (n : Nat) (b : Byte) : (s.place n b).mem = Memory.write s.cfg.font s.mem (s.bound n) b := rfl
@[simp] theorem State.place_diag (s : State) (n : Nat) (b : Byte) : (s.place n b).diag = s.diag := rfl
@[simp] theorem State.place_opc (s : State) (n : Nat) (b : Byte) : (s.place n b).opc = s.opc := rfl
@[simp] theorem State.place_draws (s : State) (n : Nat) (b : Byte) : (s.place n b).draws = s.draws := rfl
@[simp] theorem State.place_cfg (s : State) (n : Nat) (b : Byte) : (s.place n b).cfg = s.cfg := rfl
@[simp] theorem State.place_reg (s : State) (n : Nat) (b : Byte) (r : RegId) : (s.place n b).reg r = s.reg r := rfl
@[simp] theorem State.place_bound (s : State) (n : Nat) (b : Byte) (a : Nat) : (s.place n b).bound a = s.bound a := rfl
@[simp] theorem State.place_indexed (s : State) (n : Nat) (b : Byte) (k : Nat) : (s.place n b).indexed k = s.indexed k := rfl
@[simp] theorem State.place_pixel (s : State) (n : Nat) (b : Byte) (r : Fin 32) (c : Fin 64) : (s.place n b).pixel r c = s.pixel r c := rfl
@[simp] theorem State.place_pressed (s : State) (n : Nat) (b : Byte) (k : RegId) : (s.place n b).pressed k = s.pressed k := rfl
@[simp] theorem State.place_keySelect (s : State) (n : Nat) (b : Byte) (x : RegId) : (s.place n b).keySelect x = s.keySelect x := rfl
@[simp] theorem State.place_leastPressed (s : State) (n : Nat) (b : Byte) : (s.place n b).leastPressed = s.leastPressed := rfl

end Sys2Proof.Machine
end

