-- ==== Sys2Proof/Laws/Ops.lean ====
section
/-! SUPPORT. For each shared operation, what it does, said once: registers, bounded memory accesses, push and pop, the
stack error, fetch and tick. -/

namespace Sys2Proof.Machine

/-! ### Registers -/

theorem State.reg_setReg (s : State) (x r : RegId) (b : Byte) :
    (s.setReg x b).reg r = if r = x then b else s.reg r := by
  unfold State.reg State.setReg
  by_cases h : r = x
  · subst h; simp
  · have : x.val ≠ r.val := fun e => h (Fin.ext e.symm)
    simp [h, Vector.getElem_set_ne, this]

@[simp] theorem State.reg_setReg_same (s : State) (x : RegId) (b : Byte) : (s.setReg x b).reg x = b := by
  simp [State.reg_setReg]

theorem State.reg_setReg_other (s : State) {x r : RegId} (b : Byte) (h : r ≠ x) : (s.setReg x b).reg r = s.reg r := by
  simp [State.reg_setReg, h]

/-- The flag is the final value of `VF`, also when `VF` is the destination (R150). -/
theorem State.reg_setRegFlag (s : State) (x r : RegId) (b f : Byte) :
    (s.setRegFlag x b f).reg r = if r = VF then f else if r = x then b else s.reg r := by
  simp only [State.setRegFlag, State.reg_setReg]

/-! ### Advance (R106) -/

/-- The value `Advance` gives `pc`, unbounded; `none` where it leaves `pc`. -/
def Flow.target (pc : Word) : Flow → Option Nat
  | .next => some (pc.toNat + 2)
  | .skip => some (pc.toNat + 4)
  | .set t => some t
  | .hold => none
  | .fatal => none

theorem State.advance_pc (s : State) (f : Flow) :
    (s.advance f).pc = ((f.target s.pc).map trunc16).getD s.pc := by
  cases f <;> rfl

theorem State.advance_halted (s : State) (f : Flow) : (s.advance f).halted = (s.halted || decide (f = .fatal)) := by
  cases f <;> simp [State.advance]

@[simp] theorem State.advance_next_halted (s : State) : (s.advance .next).halted = s.halted := rfl

@[simp] theorem State.advance_skip_halted (s : State) : (s.advance .skip).halted = s.halted := rfl

@[simp] theorem State.advance_set_halted (s : State) (t : Nat) : (s.advance (.set t)).halted = s.halted := rfl

theorem State.advance_next_pc_toNat (s : State) : (s.advance .next).pc.toNat = (s.pc.toNat + 2) % 65536 := by
  simp [State.advance]

theorem State.advance_set_pc_toNat (s : State) (t : Nat) : (s.advance (.set t)).pc.toNat = t % 65536 := by
  simp [State.advance]

/-! ### Bounded addresses (R52) -/

theorem boundAddr_lt (p : AddrPolicy) (a : Nat) : boundAddr p a < memSize := by
  unfold boundAddr
  split
  · assumption
  · cases p
    · show 0xFFF < 0x1000
      omega
    · exact Nat.mod_lt _ (by decide)

theorem State.bound_lt (s : State) (a : Nat) : s.bound a < memSize := boundAddr_lt _ a

@[simp] theorem boundAddr_of_lt (p : AddrPolicy) {a : Nat} (h : a < memSize) : boundAddr p a = a := by
  simp [boundAddr, h]

/-! ### Diagnostics of accesses -/

@[simp] theorem addrDiags_nil : addrDiags [] = [] := rfl

theorem addrDiags_append (as bs : List Nat) : addrDiags (as ++ bs) = addrDiags as ++ addrDiags bs := by
  simp [addrDiags]

theorem isAddress_of_mem_addrDiags {as : List Nat} {d : Diag} (h : d ∈ addrDiags as) : d.IsAddress := by
  obtain ⟨a, ha, rfl⟩ := List.mem_map.1 h
  simpa [Diag.IsAddress] using (List.mem_filter.1 ha).2

theorem State.noteAddr_diag (s : State) (a : Nat) : (s.noteAddr a).diag = s.diag ++ addrDiags [a] := by
  unfold State.noteAddr addrDiags
  by_cases h : a < memSize
  · simp [h, not_le.2 h]
  · simp [h, not_lt.1 h]

theorem State.memWrite_diag (s : State) (a : Nat) (b : Byte) : (s.memWrite a b).diag = s.diag ++ addrDiags [a] :=
  s.noteAddr_diag a

theorem State.span_succ (s : State) (n : Nat) : s.span (n + 1) = s.span n ++ [s.indexed n] := by
  simp [State.span, List.range_succ]

/-! ### Memory accesses (R53) -/

/-- A read through `Bound` after a write through `Bound`. -/
theorem State.byteAt_memWrite (s : State) (a b : Nat) (v : Byte) :
    (s.memWrite a v).byteAt b = if b = s.bound a then v else s.byteAt b := by
  unfold State.byteAt
  rw [State.memWrite_cfg, State.memWrite_mem, Memory.read_write]

theorem State.memWrite_wf (s : State) (a : Nat) (v : Byte) (h : Memory.wf s.cfg.font s.mem) :
    Memory.wf s.cfg.font (s.memWrite a v).mem :=
  Memory.wf_write h (s.bound_lt a) v

theorem State.byteAt_place (s : State) (a b : Nat) (v : Byte) :
    (s.place a v).byteAt b = if b = s.bound a then v else s.byteAt b := by
  unfold State.byteAt
  rw [State.place_cfg, State.place_mem, Memory.read_write]

/-! ### Keys (R226) -/

theorem State.leastPressed_none (s : State) : s.leastPressed = none ↔ ∀ k : RegId, s.key[k] = false := by
  unfold State.leastPressed
  rw [List.findIdx?_eq_none_iff]
  constructor
  · intro h k
    simpa using h (s.key[k]) (by simp)
  · intro h x hx
    obtain ⟨k, hk, rfl⟩ := List.mem_iff_getElem.1 hx
    simpa using h ⟨k, by simpa using hk⟩

theorem State.leastPressed_eq (s : State) (k : RegId) (h : s.key[k] = true)
    (hl : ∀ j : RegId, j < k → s.key[j] = false) : s.leastPressed = some k.val := by
  unfold State.leastPressed
  rw [List.findIdx?_eq_some_iff_getElem]
  refine ⟨by simp, by simpa using h, ?_⟩
  intro j hj
  simpa using hl ⟨j, by omega⟩ hj

theorem State.leastPressed_lt (s : State) {k : Nat} (h : s.leastPressed = some k) : k < 16 := by
  unfold State.leastPressed at h
  rw [List.findIdx?_eq_some_iff_getElem] at h
  simpa using h.1

/-! ### Call stack (R25, R26) -/

theorem State.push_eq (s : State) (w : Word) (h : s.sp.val < 16) :
    s.push w = some { s with stack := s.stack.set s.sp.val w h, sp := ⟨s.sp.val + 1, Nat.succ_lt_succ h⟩ } := by
  simp [State.push, h]

theorem State.push_full (s : State) (w : Word) (h : s.sp.val = 16) : s.push w = none := by
  simp [State.push, h]

theorem State.pop_eq (s : State) (h : 0 < s.sp.val) :
    s.pop = some (s.stack[s.sp.val - 1]'(by omega), { s with sp := ⟨s.sp.val - 1, by omega⟩ }) := by
  simp only [State.pop, h, dif_pos]

theorem State.pop_empty (s : State) (h : s.sp.val = 0) : s.pop = none := by
  simp [State.pop, h]

/-- Everything a stack error does (R242): the record, and then `HALTED` or an advance by 2. -/
theorem State.stackFail_eq (s : State) (d : Diag) :
    s.stackFail d = match s.cfg.stackPolicy with
      | .halt => { s.raise d with halted := true }
      | .ignore => { s.raise d with pc := trunc16 (s.pc.toNat + 2) } := by
  unfold State.stackFail
  cases h : s.cfg.stackPolicy <;> rfl

/-! ### Fetch and tick -/

/-- The fetch latches the word at `pc` (R54, R103). -/
theorem State.fetch_opc (s : State) : s.fetch.opc = s.fetchWord := by
  simp only [State.fetch, State.memRead, State.fetchWord, State.noteAddr_byteAt, State.noteAddr_bound]

theorem State.fetch_diag (s : State) : s.fetch.diag = s.diag ++ addrDiags [s.pc.toNat, s.pc.toNat + 1] := by
  simp only [State.fetch, State.memRead, State.noteAddr_diag, List.append_assoc, ← addrDiags_append]
  rfl

theorem trunc8_pred {b : Byte} (h : 0 < b.toNat) : (trunc8 (b.toNat - 1)).toNat = b.toNat - 1 := by
  have := b.isLt
  simp; omega

theorem State.tick_dt_toNat (s : State) : s.tick.dt.toNat = s.dt.toNat - 1 := by
  unfold State.tick
  dsimp only
  split
  · exact trunc8_pred ‹_›
  · omega

theorem State.tick_st_toNat (s : State) : s.tick.st.toNat = s.st.toNat - 1 := by
  unfold State.tick
  dsimp only
  split
  · exact trunc8_pred ‹_›
  · omega

/-- The tone event is the step of `ST` from 2 to 1 (R109). -/
theorem State.tick_tone (s : State) : s.tick.tone = (s.tone || decide (s.st.toNat = 2)) := by
  have hs : (s.tick.st = 1) ↔ s.st.toNat - 1 = 1 := by
    rw [← State.tick_st_toNat, ← BitVec.toNat_inj]; rfl
  have : s.tick.tone = if 0 < s.st.toNat ∧ s.tick.st = 1 then true else s.tone := rfl
  rw [this]
  by_cases h : s.st.toNat = 2
  · rw [if_pos ⟨by omega, hs.2 (by omega)⟩]; simp [h]
  · rw [if_neg (fun k => h (by have := hs.1 k.2; omega))]; simp [h]

end Sys2Proof.Machine
end

