-- ==== Sys2Proof/Laws/Sprite.lean ====
section
/-! SUPPORT. What drawing a sprite does (spec/44_display.md R201, R202), said once: which pixels a row and a sprite
complement, when they collide, and what the drawing leaves alone. -/

namespace Sys2Proof.Machine

/-! ### Pixels -/

theorem Fb.get_flip (fb : Fb) (r R : Fin 32) (c C : Fin 64) :
    (fb.flip r c).get R C = if R = r ∧ C = c then !fb.get r c else fb.get R C := by
  unfold Fb.get Fb.flip
  by_cases hr : R = r
  · subst hr
    by_cases hc : C = c
    · subst hc; simp
    · have : c.val ≠ C.val := fun e => hc (Fin.ext e.symm)
      simp [hc, Vector.getElem_set_ne, this]
  · have : r.val ≠ R.val := fun e => hr (Fin.ext e.symm)
    simp [hr, Vector.getElem_set_ne, this]

@[simp] theorem Fb.get_blank (r : Fin 32) (c : Fin 64) : Fb.get Fb.blank r c = false := by
  simp [Fb.get, Fb.blank]

/-- Two columns of one sprite row land on different columns. -/
theorem spriteCol_inj {cx c d : Nat} (hc : c < 8) (hd : d < 8) (h : spriteCol cx c = spriteCol cx d) : c = d := by
  have := congrArg Fin.val h
  simp only [spriteCol, Fin.val_ofNat] at this
  omega

/-- Two rows of one sprite land on different rows. -/
theorem spriteRow_inj {cy r q : Nat} (hr : r < 16) (hq : q < 16) (h : spriteRow cy r = spriteRow cy q) : r = q := by
  have := congrArg Fin.val h
  simp only [spriteRow, Fin.val_ofNat] at this
  omega

/-! ### One row -/

/-- The pixels after the first `k` bits of a row byte: those under a set bit are complemented. -/
theorem drawBits_get (b : Byte) (row : Fin 32) (cx : Nat) (p : Fb × Bool) (R : Fin 32) (C : Fin 64) :
    ∀ k ≤ 8, (drawBits b row cx p k).1.get R C =
      if R = row ∧ ∃ c, c < k ∧ spriteBit b c = true ∧ spriteCol cx c = C then !p.1.get R C else p.1.get R C := by
  intro k
  induction k with
  | zero => intro _; simp [drawBits]
  | succ k ih =>
    intro hk
    have ih := ih (by omega)
    rw [drawBits]
    by_cases hb : spriteBit b k = true
    · rw [if_pos hb]
      simp only [Fb.get_flip]
      by_cases h : R = row ∧ C = spriteCol cx k
      · obtain ⟨rfl, rfl⟩ := h
        have hn : ¬∃ c, c < k ∧ spriteBit b c = true ∧ spriteCol cx c = spriteCol cx k := by
          rintro ⟨c, hc, -, e⟩
          have := spriteCol_inj (by omega) (by omega) e
          omega
        rw [if_pos ⟨rfl, rfl⟩, if_pos ⟨rfl, k, k.lt_succ_self, hb, rfl⟩, ih, if_neg (fun h => hn h.2)]
      · rw [if_neg h, ih]
        congr 1
        refine propext (and_congr_right fun hR => ⟨?_, ?_⟩)
        · rintro ⟨c, hc, e⟩; exact ⟨c, by omega, e⟩
        · rintro ⟨c, hc, e1, e2⟩
          refine ⟨c, ?_, e1, e2⟩
          rcases Nat.lt_succ_iff_lt_or_eq.1 hc with hc | rfl
          · exact hc
          · exact absurd ⟨hR, e2.symm⟩ h
    · rw [if_neg hb, ih]
      congr 1
      refine propext (and_congr_right fun _ => ⟨?_, ?_⟩)
      · rintro ⟨c, hc, e⟩; exact ⟨c, by omega, e⟩
      · rintro ⟨c, hc, e1, e2⟩
        refine ⟨c, ?_, e1, e2⟩
        rcases Nat.lt_succ_iff_lt_or_eq.1 hc with hc | rfl
        · exact hc
        · exact absurd e1 hb

/-- When the first `k` bits of a row byte collide: a set bit lands on a pixel that is on. -/
theorem drawBits_hit (b : Byte) (row : Fin 32) (cx : Nat) (p : Fb × Bool) :
    ∀ k ≤ 8, (drawBits b row cx p k).2 = true ↔
      p.2 = true ∨ ∃ c, c < k ∧ spriteBit b c = true ∧ p.1.get row (spriteCol cx c) = true := by
  intro k
  induction k with
  | zero => intro _; simp [drawBits]
  | succ k ih =>
    intro hk
    have ih := ih (by omega)
    have hget : (drawBits b row cx p k).1.get row (spriteCol cx k) = p.1.get row (spriteCol cx k) := by
      rw [drawBits_get b row cx p _ _ k (by omega), if_neg]
      rintro ⟨-, c, hc, -, e⟩
      have := spriteCol_inj (by omega) (by omega) e
      omega
    rw [drawBits]
    by_cases hb : spriteBit b k = true
    · rw [if_pos hb]
      simp only [Bool.or_eq_true, ih, hget]
      constructor
      · rintro ((h | ⟨c, hc, e⟩) | h)
        · exact .inl h
        · exact .inr ⟨c, by omega, e⟩
        · exact .inr ⟨k, by omega, hb, h⟩
      · rintro (h | ⟨c, hc, e1, e2⟩)
        · exact .inl (.inl h)
        · rcases Nat.lt_succ_iff_lt_or_eq.1 hc with hc | rfl
          · exact .inl (.inr ⟨c, hc, e1, e2⟩)
          · exact .inr e2
    · rw [if_neg hb, ih]
      refine or_congr_right ⟨?_, ?_⟩
      · rintro ⟨c, hc, e⟩; exact ⟨c, by omega, e⟩
      · rintro ⟨c, hc, e1, e2⟩
        refine ⟨c, ?_, e1, e2⟩
        rcases Nat.lt_succ_iff_lt_or_eq.1 hc with hc | rfl
        · exact hc
        · exact absurd e1 hb

/-! ### What the drawing of rows leaves alone -/

@[simp] theorem State.drawRows_v (s : State) (cx cy n : Nat) : (s.drawRows cx cy n).1.v = s.v := by
  induction n with
  | zero => rfl
  | succ n ih => exact (State.noteAddr_v _ _).trans ih

@[simp] theorem State.drawRows_i (s : State) (cx cy n : Nat) : (s.drawRows cx cy n).1.i = s.i := by
  induction n with
  | zero => rfl
  | succ n ih => exact (State.noteAddr_i _ _).trans ih

@[simp] theorem State.drawRows_pc (s : State) (cx cy n : Nat) : (s.drawRows cx cy n).1.pc = s.pc := by
  induction n with
  | zero => rfl
  | succ n ih => exact (State.noteAddr_pc _ _).trans ih

@[simp] theorem State.drawRows_sp (s : State) (cx cy n : Nat) : (s.drawRows cx cy n).1.sp = s.sp := by
  induction n with
  | zero => rfl
  | succ n ih => exact (State.noteAddr_sp _ _).trans ih

@[simp] theorem State.drawRows_stack (s : State) (cx cy n : Nat) : (s.drawRows cx cy n).1.stack = s.stack := by
  induction n with
  | zero => rfl
  | succ n ih => exact (State.noteAddr_stack _ _).trans ih

@[simp] theorem State.drawRows_dt (s : State) (cx cy n : Nat) : (s.drawRows cx cy n).1.dt = s.dt := by
  induction n with
  | zero => rfl
  | succ n ih => exact (State.noteAddr_dt _ _).trans ih

@[simp] theorem State.drawRows_st (s : State) (cx cy n : Nat) : (s.drawRows cx cy n).1.st = s.st := by
  induction n with
  | zero => rfl
  | succ n ih => exact (State.noteAddr_st _ _).trans ih

@[simp] theorem State.drawRows_tone (s : State) (cx cy n : Nat) : (s.drawRows cx cy n).1.tone = s.tone := by
  induction n with
  | zero => rfl
  | succ n ih => exact (State.noteAddr_tone _ _).trans ih

@[simp] theorem State.drawRows_redraw (s : State) (cx cy n : Nat) : (s.drawRows cx cy n).1.redraw = s.redraw := by
  induction n with
  | zero => rfl
  | succ n ih => exact (State.noteAddr_redraw _ _).trans ih

@[simp] theorem State.drawRows_key (s : State) (cx cy n : Nat) : (s.drawRows cx cy n).1.key = s.key := by
  induction n with
  | zero => rfl
  | succ n ih => exact (State.noteAddr_key _ _).trans ih

@[simp] theorem State.drawRows_halted (s : State) (cx cy n : Nat) : (s.drawRows cx cy n).1.halted = s.halted := by
  induction n with
  | zero => rfl
  | succ n ih => exact (State.noteAddr_halted _ _).trans ih

@[simp] theorem State.drawRows_keywait (s : State) (cx cy n : Nat) : (s.drawRows cx cy n).1.keywait = s.keywait := by
  induction n with
  | zero => rfl
  | succ n ih => exact (State.noteAddr_keywait _ _).trans ih

@[simp] theorem State.drawRows_mem (s : State) (cx cy n : Nat) : (s.drawRows cx cy n).1.mem = s.mem := by
  induction n with
  | zero => rfl
  | succ n ih => exact (State.noteAddr_mem _ _).trans ih

@[simp] theorem State.drawRows_opc (s : State) (cx cy n : Nat) : (s.drawRows cx cy n).1.opc = s.opc := by
  induction n with
  | zero => rfl
  | succ n ih => exact (State.noteAddr_opc _ _).trans ih

@[simp] theorem State.drawRows_draws (s : State) (cx cy n : Nat) : (s.drawRows cx cy n).1.draws = s.draws := by
  induction n with
  | zero => rfl
  | succ n ih => exact (State.noteAddr_draws _ _).trans ih

@[simp] theorem State.drawRows_cfg (s : State) (cx cy n : Nat) : (s.drawRows cx cy n).1.cfg = s.cfg := by
  induction n with
  | zero => rfl
  | succ n ih => exact (State.noteAddr_cfg _ _).trans ih

@[simp] theorem State.drawRows_byteAt (s : State) (cx cy n a : Nat) :
    (s.drawRows cx cy n).1.byteAt a = s.byteAt a := by
  simp only [State.byteAt, State.drawRows_cfg, State.drawRows_mem]

@[simp] theorem State.drawRows_bound (s : State) (cx cy n a : Nat) :
    (s.drawRows cx cy n).1.bound a = s.bound a := by
  simp only [State.bound, State.drawRows_cfg]

@[simp] theorem State.drawRows_reg (s : State) (cx cy n : Nat) (r : RegId) :
    (s.drawRows cx cy n).1.reg r = s.reg r := by
  simp only [State.reg, State.drawRows_v]

theorem State.drawRows_diag (s : State) (cx cy n : Nat) :
    (s.drawRows cx cy n).1.diag = s.diag ++ addrDiags (s.span n) := by
  induction n with
  | zero => simp [State.drawRows, State.span]
  | succ n ih =>
    rw [State.span_succ, addrDiags_append, ← List.append_assoc, ← ih]
    exact (s.drawRows cx cy n).1.noteAddr_diag (s.indexed n)

/-! ### The sprite -/

theorem spriteBit_iff (b : Byte) {c : Nat} (_h : c < 8) :
    spriteBit b c = true ↔ b.toNat / 2 ^ (7 - c) % 2 = 1 := by
  rw [spriteBit, BitVec.getLsbD, Nat.testBit_eq_decide_div_mod_eq, decide_eq_true_iff]

/-- A sprite covers a buffer pixel, in the terms of the drawing. -/
theorem State.spriteCovers_iff (s : State) (cx cy n : Nat) (R : Fin 32) (C : Fin 64) :
    s.spriteCovers cx cy n R C ↔ ∃ r, r < n ∧ R = spriteRow cy r ∧
      ∃ c, c < 8 ∧ spriteBit (s.byteAt (s.bound (s.indexed r))) c = true ∧ spriteCol cx c = C := by
  constructor
  · rintro ⟨r, c, hr, hc, hp, eR, eC⟩
    exact ⟨r, hr, Fin.ext (by simpa [spriteRow] using eR.symm), c, hc, (spriteBit_iff _ hc).2 hp,
      Fin.ext (by simpa [spriteCol] using eC)⟩
  · rintro ⟨r, hr, eR, c, hc, hp, eC⟩
    refine ⟨r, c, hr, hc, (spriteBit_iff _ hc).1 hp, ?_, ?_⟩
    · rw [eR]; simp [spriteRow]
    · rw [← eC]; simp [spriteCol]

/-- One more row covers what the earlier rows cover and what its own bits cover. -/
theorem State.spriteCovers_succ (s : State) (cx cy n : Nat) (R : Fin 32) (C : Fin 64) :
    s.spriteCovers cx cy (n + 1) R C ↔ s.spriteCovers cx cy n R C ∨ (R = spriteRow cy n ∧
      ∃ c, c < 8 ∧ spriteBit (s.byteAt (s.bound (s.indexed n))) c = true ∧ spriteCol cx c = C) := by
  simp only [State.spriteCovers_iff]
  constructor
  · rintro ⟨r, hr, e⟩
    rcases Nat.lt_succ_iff_lt_or_eq.1 hr with hr | rfl
    · exact .inl ⟨r, hr, e⟩
    · exact .inr e
  · rintro (⟨r, hr, e⟩ | e)
    · exact ⟨r, by omega, e⟩
    · exact ⟨n, by omega, e⟩

/-- A row that is still to be drawn is not covered yet. -/
theorem State.not_spriteCovers_row (s : State) (cx cy n : Nat) (hn : n < 16) (C : Fin 64) :
    ¬s.spriteCovers cx cy n (spriteRow cy n) C := by
  rw [State.spriteCovers_iff]
  rintro ⟨r, hr, e, -⟩
  have := spriteRow_inj hn (by omega) e
  omega

/-- The pixels after `n` rows: the covered ones are complemented, the others as before. -/
theorem State.drawRows_get (s : State) (cx cy : Nat) (R : Fin 32) (C : Fin 64) : ∀ n ≤ 16,
    (s.spriteCovers cx cy n R C → (s.drawRows cx cy n).1.fb.get R C = !s.fb.get R C) ∧
    (¬s.spriteCovers cx cy n R C → (s.drawRows cx cy n).1.fb.get R C = s.fb.get R C) := by
  intro n
  induction n with
  | zero =>
    intro _
    refine ⟨?_, fun _ => rfl⟩
    rintro ⟨r, c, hr, -⟩
    omega
  | succ n ih =>
    intro hn
    obtain ⟨ih1, ih2⟩ := ih (by omega)
    have e : (s.drawRows cx cy (n + 1)).1.fb = (drawBits (s.byteAt (s.bound (s.indexed n))) (spriteRow cy n) cx
        ((s.drawRows cx cy n).1.fb, (s.drawRows cx cy n).2) 8).1 := by
      simp only [State.drawRows, State.memRead, State.drawRows_byteAt, State.drawRows_bound, State.noteAddr_fb]
    rw [e, drawBits_get _ _ _ _ _ _ 8 le_rfl, State.spriteCovers_succ]
    by_cases h : R = spriteRow cy n ∧ ∃ c, c < 8 ∧ spriteBit (s.byteAt (s.bound (s.indexed n))) c = true ∧
        spriteCol cx c = C
    · have hold : ¬s.spriteCovers cx cy n R C := by
        rw [h.1]; exact s.not_spriteCovers_row cx cy n (by omega) C
      rw [if_pos h, ih2 hold]
      exact ⟨fun _ => rfl, fun k => absurd (.inr h) k⟩
    · rw [if_neg h]
      exact ⟨fun k => ih1 (k.resolve_right h), fun k => ih2 (fun k' => k (.inl k'))⟩

/-- When `n` rows collide: a covered pixel was on. -/
theorem State.drawRows_hit (s : State) (cx cy : Nat) : ∀ n ≤ 16,
    (s.drawRows cx cy n).2 = true ↔ ∃ R C, s.spriteCovers cx cy n R C ∧ s.fb.get R C = true := by
  intro n
  induction n with
  | zero =>
    intro _
    constructor
    · intro h; simp [State.drawRows] at h
    · rintro ⟨R, C, ⟨r, c, hr, -⟩, -⟩
      omega
  | succ n ih =>
    intro hn
    have ih := ih (by omega)
    have e : (s.drawRows cx cy (n + 1)).2 = (drawBits (s.byteAt (s.bound (s.indexed n))) (spriteRow cy n) cx
        ((s.drawRows cx cy n).1.fb, (s.drawRows cx cy n).2) 8).2 := by
      simp only [State.drawRows, State.memRead, State.drawRows_byteAt, State.drawRows_bound, State.noteAddr_fb]
    have hrow : ∀ C, (s.drawRows cx cy n).1.fb.get (spriteRow cy n) C = s.fb.get (spriteRow cy n) C := fun C =>
      (s.drawRows_get cx cy (spriteRow cy n) C n (by omega)).2 (s.not_spriteCovers_row cx cy n (by omega) C)
    rw [e, drawBits_hit _ _ _ _ 8 le_rfl, ih]
    simp only [hrow, State.spriteCovers_succ]
    constructor
    · rintro (⟨R, C, h1, h2⟩ | ⟨c, hc, hb, hg⟩)
      · exact ⟨R, C, .inl h1, h2⟩
      · exact ⟨spriteRow cy n, spriteCol cx c, .inr ⟨rfl, c, hc, hb, rfl⟩, hg⟩
    · rintro ⟨R, C, h1 | ⟨rfl, c, hc, hb, rfl⟩, h2⟩
      · exact .inl ⟨R, C, h1, h2⟩
      · exact .inr ⟨c, hc, hb, h2⟩

end Sys2Proof.Machine
end

