-- ==== Sys2Proof/Laws/Transfers.lean ====
section
/-! SUPPORT. What the loops of the bulk transfers do, said once, for any number of registers. -/

namespace Sys2Proof.Machine

/-! ### What a store loop leaves alone -/

@[simp] theorem State.storeRegs_v (s : State) (n : Nat) : (s.storeRegs n).v = s.v := by
  induction n with
  | zero => rfl
  | succ n ih => exact (State.memWrite_v _ _ _).trans ih

@[simp] theorem State.storeRegs_i (s : State) (n : Nat) : (s.storeRegs n).i = s.i := by
  induction n with
  | zero => rfl
  | succ n ih => exact (State.memWrite_i _ _ _).trans ih

@[simp] theorem State.storeRegs_pc (s : State) (n : Nat) : (s.storeRegs n).pc = s.pc := by
  induction n with
  | zero => rfl
  | succ n ih => exact (State.memWrite_pc _ _ _).trans ih

@[simp] theorem State.storeRegs_sp (s : State) (n : Nat) : (s.storeRegs n).sp = s.sp := by
  induction n with
  | zero => rfl
  | succ n ih => exact (State.memWrite_sp _ _ _).trans ih

@[simp] theorem State.storeRegs_stack (s : State) (n : Nat) : (s.storeRegs n).stack = s.stack := by
  induction n with
  | zero => rfl
  | succ n ih => exact (State.memWrite_stack _ _ _).trans ih

@[simp] theorem State.storeRegs_dt (s : State) (n : Nat) : (s.storeRegs n).dt = s.dt := by
  induction n with
  | zero => rfl
  | succ n ih => exact (State.memWrite_dt _ _ _).trans ih

@[simp] theorem State.storeRegs_st (s : State) (n : Nat) : (s.storeRegs n).st = s.st := by
  induction n with
  | zero => rfl
  | succ n ih => exact (State.memWrite_st _ _ _).trans ih

@[simp] theorem State.storeRegs_tone (s : State) (n : Nat) : (s.storeRegs n).tone = s.tone := by
  induction n with
  | zero => rfl
  | succ n ih => exact (State.memWrite_tone _ _ _).trans ih

@[simp] theorem State.storeRegs_fb (s : State) (n : Nat) : (s.storeRegs n).fb = s.fb := by
  induction n with
  | zero => rfl
  | succ n ih => exact (State.memWrite_fb _ _ _).trans ih

@[simp] theorem State.storeRegs_redraw (s : State) (n : Nat) : (s.storeRegs n).redraw = s.redraw := by
  induction n with
  | zero => rfl
  | succ n ih => exact (State.memWrite_redraw _ _ _).trans ih

@[simp] theorem State.storeRegs_key (s : State) (n : Nat) : (s.storeRegs n).key = s.key := by
  induction n with
  | zero => rfl
  | succ n ih => exact (State.memWrite_key _ _ _).trans ih

@[simp] theorem State.storeRegs_halted (s : State) (n : Nat) : (s.storeRegs n).halted = s.halted := by
  induction n with
  | zero => rfl
  | succ n ih => exact (State.memWrite_halted _ _ _).trans ih

@[simp] theorem State.storeRegs_keywait (s : State) (n : Nat) : (s.storeRegs n).keywait = s.keywait := by
  induction n with
  | zero => rfl
  | succ n ih => exact (State.memWrite_keywait _ _ _).trans ih

@[simp] theorem State.storeRegs_opc (s : State) (n : Nat) : (s.storeRegs n).opc = s.opc := by
  induction n with
  | zero => rfl
  | succ n ih => exact (State.memWrite_opc _ _ _).trans ih

@[simp] theorem State.storeRegs_draws (s : State) (n : Nat) : (s.storeRegs n).draws = s.draws := by
  induction n with
  | zero => rfl
  | succ n ih => exact (State.memWrite_draws _ _ _).trans ih

@[simp] theorem State.storeRegs_cfg (s : State) (n : Nat) : (s.storeRegs n).cfg = s.cfg := by
  induction n with
  | zero => rfl
  | succ n ih => exact (State.memWrite_cfg _ _ _).trans ih

@[simp] theorem State.storeRegs_reg (s : State) (n : Nat) (r : RegId) : (s.storeRegs n).reg r = s.reg r := by
  simp only [State.reg, State.storeRegs_v]

@[simp] theorem State.storeRegs_bound (s : State) (n a : Nat) : (s.storeRegs n).bound a = s.bound a := by
  simp [State.bound]

theorem State.storeRegs_diag (s : State) (n : Nat) : (s.storeRegs n).diag = s.diag ++ addrDiags (s.span n) := by
  induction n with
  | zero => simp [State.storeRegs, State.span]
  | succ n ih => rw [State.storeRegs, State.memWrite_diag, ih, State.span_succ, addrDiags_append, List.append_assoc]

/-- A byte no store reaches is unchanged. -/
theorem State.storeRegs_byteAt_other (s : State) (n a : Nat) (h : ∀ j < n, s.bound (s.indexed j) ≠ a) :
    (s.storeRegs n).byteAt a = s.byteAt a := by
  induction n with
  | zero => rfl
  | succ n ih =>
    rw [State.storeRegs, State.byteAt_memWrite, State.storeRegs_bound, if_neg (fun e => h n n.lt_succ_self e.symm),
      ih (fun j hj => h j (by omega))]

/-- The last store that reaches a byte decides it. -/
theorem State.storeRegs_byteAt (s : State) (n j : Nat) (hj : j < n)
    (hl : ∀ k, j < k → k < n → s.bound (s.indexed k) ≠ s.bound (s.indexed j)) :
    (s.storeRegs n).byteAt (s.bound (s.indexed j)) = s.reg (Fin.ofNat 16 j) := by
  induction n with
  | zero => omega
  | succ n ih =>
    rw [State.storeRegs, State.byteAt_memWrite, State.storeRegs_bound]
    by_cases h : j = n
    · rw [if_pos (by rw [h]), h]
    · rw [if_neg (fun e => hl n (by omega) n.lt_succ_self e.symm), ih (by omega) (fun k h1 h2 => hl k h1 (by omega))]

theorem State.storeRegs_wf (s : State) (n : Nat) (h : Memory.wf s.cfg.font s.mem) :
    Memory.wf s.cfg.font (s.storeRegs n).mem := by
  induction n with
  | zero => exact h
  | succ n ih =>
    have := (s.storeRegs n).memWrite_wf (s.indexed n) (s.reg (Fin.ofNat 16 n))
    rw [State.storeRegs_cfg] at this
    exact this ih

/-! ### What a load loop leaves alone -/

@[simp] theorem State.loadRegs_i (s : State) (n : Nat) : (s.loadRegs n).i = s.i := by
  induction n with
  | zero => rfl
  | succ n ih => exact (State.noteAddr_i _ _).trans ih

@[simp] theorem State.loadRegs_pc (s : State) (n : Nat) : (s.loadRegs n).pc = s.pc := by
  induction n with
  | zero => rfl
  | succ n ih => exact (State.noteAddr_pc _ _).trans ih

@[simp] theorem State.loadRegs_sp (s : State) (n : Nat) : (s.loadRegs n).sp = s.sp := by
  induction n with
  | zero => rfl
  | succ n ih => exact (State.noteAddr_sp _ _).trans ih

@[simp] theorem State.loadRegs_stack (s : State) (n : Nat) : (s.loadRegs n).stack = s.stack := by
  induction n with
  | zero => rfl
  | succ n ih => exact (State.noteAddr_stack _ _).trans ih

@[simp] theorem State.loadRegs_dt (s : State) (n : Nat) : (s.loadRegs n).dt = s.dt := by
  induction n with
  | zero => rfl
  | succ n ih => exact (State.noteAddr_dt _ _).trans ih

@[simp] theorem State.loadRegs_st (s : State) (n : Nat) : (s.loadRegs n).st = s.st := by
  induction n with
  | zero => rfl
  | succ n ih => exact (State.noteAddr_st _ _).trans ih

@[simp] theorem State.loadRegs_tone (s : State) (n : Nat) : (s.loadRegs n).tone = s.tone := by
  induction n with
  | zero => rfl
  | succ n ih => exact (State.noteAddr_tone _ _).trans ih

@[simp] theorem State.loadRegs_fb (s : State) (n : Nat) : (s.loadRegs n).fb = s.fb := by
  induction n with
  | zero => rfl
  | succ n ih => exact (State.noteAddr_fb _ _).trans ih

@[simp] theorem State.loadRegs_redraw (s : State) (n : Nat) : (s.loadRegs n).redraw = s.redraw := by
  induction n with
  | zero => rfl
  | succ n ih => exact (State.noteAddr_redraw _ _).trans ih

@[simp] theorem State.loadRegs_key (s : State) (n : Nat) : (s.loadRegs n).key = s.key := by
  induction n with
  | zero => rfl
  | succ n ih => exact (State.noteAddr_key _ _).trans ih

@[simp] theorem State.loadRegs_halted (s : State) (n : Nat) : (s.loadRegs n).halted = s.halted := by
  induction n with
  | zero => rfl
  | succ n ih => exact (State.noteAddr_halted _ _).trans ih

@[simp] theorem State.loadRegs_keywait (s : State) (n : Nat) : (s.loadRegs n).keywait = s.keywait := by
  induction n with
  | zero => rfl
  | succ n ih => exact (State.noteAddr_keywait _ _).trans ih

@[simp] theorem State.loadRegs_mem (s : State) (n : Nat) : (s.loadRegs n).mem = s.mem := by
  induction n with
  | zero => rfl
  | succ n ih => exact (State.noteAddr_mem _ _).trans ih

@[simp] theorem State.loadRegs_opc (s : State) (n : Nat) : (s.loadRegs n).opc = s.opc := by
  induction n with
  | zero => rfl
  | succ n ih => exact (State.noteAddr_opc _ _).trans ih

@[simp] theorem State.loadRegs_draws (s : State) (n : Nat) : (s.loadRegs n).draws = s.draws := by
  induction n with
  | zero => rfl
  | succ n ih => exact (State.noteAddr_draws _ _).trans ih

@[simp] theorem State.loadRegs_cfg (s : State) (n : Nat) : (s.loadRegs n).cfg = s.cfg := by
  induction n with
  | zero => rfl
  | succ n ih => exact (State.noteAddr_cfg _ _).trans ih

@[simp] theorem State.loadRegs_byteAt (s : State) (n a : Nat) : (s.loadRegs n).byteAt a = s.byteAt a := by
  simp [State.byteAt]

@[simp] theorem State.loadRegs_bound (s : State) (n a : Nat) : (s.loadRegs n).bound a = s.bound a := by
  simp [State.bound]

theorem State.loadRegs_diag (s : State) (n : Nat) : (s.loadRegs n).diag = s.diag ++ addrDiags (s.span n) := by
  induction n with
  | zero => simp [State.loadRegs, State.span]
  | succ n ih =>
    rw [State.span_succ, addrDiags_append, ← List.append_assoc, ← ih]
    exact (s.loadRegs n).noteAddr_diag (s.indexed n)

/-- The loaded registers, and the others. -/
theorem State.loadRegs_reg (s : State) (n : Nat) (hn : n ≤ 16) (r : RegId) :
    (s.loadRegs n).reg r = if r.val < n then s.byteAt (s.bound (s.indexed r.val)) else s.reg r := by
  induction n with
  | zero => simp [State.loadRegs]
  | succ n ih =>
    have hr : (r = Fin.ofNat 16 n) ↔ r.val = n := by
      rw [Fin.ext_iff, Fin.val_ofNat, Nat.mod_eq_of_lt (by omega)]
    rw [State.loadRegs]
    simp only [State.memRead, State.reg_setReg, State.loadRegs_byteAt, State.loadRegs_bound, hr]
    by_cases h : r.val = n
    · simp [h]
    · have h1 : r.val < n + 1 ↔ r.val < n := by omega
      have h2 : ((s.loadRegs n).noteAddr (s.indexed n)).reg r = (s.loadRegs n).reg r := by
        simp only [State.noteAddr_reg]
      simp only [h, if_false, h1, h2]
      exact ih (by omega)

end Sys2Proof.Machine
end

