-- ==== Sys2Proof/Laws/Step.lean ====
section
/-! SUPPORT. The step taken apart once: the halted cycle, the cycle of a decoded instruction, the cycle of an
unrecognized opcode; and the end of a cycle, field by field where it leaves a field alone. -/

namespace Sys2Proof.Machine

theorem State.clearDiag_fetch_opc (s : State) : s.clearDiag.fetch.opc = s.fetchWord := s.clearDiag.fetch_opc

theorem State.clearDiag_fetch_diag (s : State) :
    s.clearDiag.fetch.diag = addrDiags [s.pc.toNat, s.pc.toNat + 1] := by
  rw [State.fetch_diag]; rfl

theorem step_halted {s : State} (h : s.halted = true) : step s = .next s.clearDiag := by
  simp [step, h]

theorem step_decoded {s : State} (h : s.halted = false) {i : Instr}
    (hd : decode s.cfg.bulk s.fetchWord = .instr i) : step s = endOutcome (exec i s.clearDiag.fetch) := by
  simp [step, h, State.clearDiag_fetch_opc, hd]

theorem step_unrecognized {s : State} (h : s.halted = false) {w : Word}
    (hd : decode s.cfg.bulk s.fetchWord = .unrecognized w) :
    step s = .next (s.clearDiag.fetch.unrecognized w).endCycle := by
  simp [step, h, State.clearDiag_fetch_opc, hd]

/-- A skip advances by 4 or by 2 and never halts (R107). -/
theorem State.advance_skipIf_pc_toNat (s : State) (c : Bool) :
    (s.advance (skipIf c)).pc.toNat = (s.pc.toNat + if c then 4 else 2) % 65536 := by
  cases c <;> simp [State.advance, skipIf]

@[simp] theorem State.advance_skipIf_halted (s : State) (c : Bool) : (s.advance (skipIf c)).halted = s.halted := by
  cases c <;> rfl

/-- The selected key is the low four bits of `V[x]` (R223). -/
theorem State.keySelect_val (s : State) (x : RegId) : (s.keySelect x).val = (s.reg x).toNat % 16 := by
  have h : ((s.reg x) &&& 0x0F).toNat = (s.reg x).toNat % 16 :=
    (BitVec.toNat_and _ _).trans (Nat.and_two_pow_sub_one_eq_mod (s.reg x).toNat 4)
  rw [State.keySelect, h]
  simp

/-! ### The instructions with several outcomes -/

theorem execRet_of_entry (s : State) (h : 0 < s.sp.val) :
    execRet s = .next (State.advance { s with sp := ⟨s.sp.val - 1, by omega⟩ }
      (.set ((s.stack[s.sp.val - 1]'(by omega)).toNat + 2))) := by
  simp only [execRet, s.pop_eq h]; rfl

theorem execRet_of_empty (s : State) (h : s.sp.val = 0) :
    execRet s = .next (s.stackFail (.stackUnderflow s.pc)) := by
  simp only [execRet, s.pop_empty h]

theorem execCall_of_room (nnn : BitVec 12) (s : State) (h : s.sp.val < 16) :
    execCall nnn s = .next (State.advance
      { s with stack := s.stack.set s.sp.val s.pc h, sp := ⟨s.sp.val + 1, Nat.succ_lt_succ h⟩ } (.set nnn.toNat)) := by
  simp only [execCall, s.push_eq s.pc h]; rfl

theorem execCall_of_full (nnn : BitVec 12) (s : State) (h : s.sp.val = 16) :
    execCall nnn s = .next (s.stackFail (.stackOverflow s.pc)) := by
  simp only [execCall, s.push_full s.pc h]

theorem execLdVxK_of_pressed (x : RegId) (s : State) {k : Nat} (h : s.leastPressed = some k) :
    execLdVxK x s = .next (State.advance { s.setReg x (trunc8 k) with keywait := false } .next) := by
  simp only [execLdVxK, h]; rfl

theorem execLdVxK_of_none (x : RegId) (s : State) (h : s.leastPressed = none) :
    execLdVxK x s = .next (State.advance { s with keywait := true } .hold) := by
  simp only [execLdVxK, h]; rfl

/-- Everything an instruction can end as: an effect that leaves `pc` and `HALTED` alone and then an advance that is not
fatal, or one of the two stack errors (R105, R106, R242). -/
theorem exec_cases (i : Instr) (s : State) :
    (∃ f u, exec i s = .next (State.advance u f) ∧ f ≠ .fatal ∧ u.halted = s.halted ∧ u.pc = s.pc) ∨
    (i = .ret ∧ s.sp.val = 0 ∧ exec i s = .next (s.stackFail (.stackUnderflow s.pc))) ∨
    ((∃ nnn, i = .call nnn) ∧ s.sp.val = 16 ∧ exec i s = .next (s.stackFail (.stackOverflow s.pc))) := by
  cases i
  case ret =>
    by_cases hs : 0 < s.sp.val
    · exact .inl ⟨_, _, execRet_of_entry s hs, by simp, rfl, rfl⟩
    · exact .inr (.inl ⟨rfl, by omega, execRet_of_empty s (by omega)⟩)
  case call nnn =>
    by_cases hs : s.sp.val < 16
    · exact .inl ⟨_, _, execCall_of_room nnn s hs, by simp, rfl, rfl⟩
    · exact .inr (.inr ⟨⟨_, rfl⟩, by omega, execCall_of_full nnn s (by omega)⟩)
  case ldVxK x =>
    cases h : s.leastPressed with
    | some k => exact .inl ⟨_, _, execLdVxK_of_pressed x s h, by simp, rfl, rfl⟩
    | none => exact .inl ⟨_, _, execLdVxK_of_none x s h, by simp, rfl, rfl⟩
  all_goals
    refine .inl ⟨_, _, rfl, ?_, ?_, ?_⟩
    · simp [skipIf]; try (split <;> simp)
    · simp [State.setRegFlag]
    · simp [State.setRegFlag]

/-! ### The step -/

/-- Everything a step can be. -/
theorem step_cases (s : State) :
    (s.halted = true ∧ step s = .next s.clearDiag) ∨
    (s.halted = false ∧ ∃ i, decode s.cfg.bulk s.fetchWord = .instr i ∧
      step s = endOutcome (exec i s.clearDiag.fetch)) ∨
    (s.halted = false ∧ ∃ w, decode s.cfg.bulk s.fetchWord = .unrecognized w ∧
      step s = .next (s.clearDiag.fetch.unrecognized w).endCycle) := by
  cases h : s.halted
  · cases hd : decode s.cfg.bulk s.fetchWord with
    | instr i => exact .inr (.inl ⟨rfl, i, rfl, step_decoded h hd⟩)
    | unrecognized w => exact .inr (.inr ⟨rfl, w, rfl, step_unrecognized h hd⟩)
  · exact .inl ⟨rfl, step_halted h⟩

/-- Everything a next state of a step can be. -/
theorem step_next_cases {s t : State} (h : step s = .next t) :
    (s.halted = true ∧ t = s.clearDiag) ∨
    (s.halted = false ∧ ∃ i u, decode s.cfg.bulk s.fetchWord = .instr i ∧ exec i s.clearDiag.fetch = .next u ∧
      t = u.endCycle) ∨
    (s.halted = false ∧ ∃ w, decode s.cfg.bulk s.fetchWord = .unrecognized w ∧
      t = (s.clearDiag.fetch.unrecognized w).endCycle) := by
  rcases step_cases s with ⟨hs, e⟩ | ⟨hs, i, hd, e⟩ | ⟨hs, w, hd, e⟩
  · rw [e] at h; cases h; exact .inl ⟨hs, rfl⟩
  · rw [e] at h
    cases hx : exec i s.clearDiag.fetch with
    | next u => rw [hx] at h; cases h; exact .inr (.inl ⟨hs, i, u, hd, hx, rfl⟩)
    | fault r => cases r
    | refused r => rw [hx] at h; cases h
  · rw [e] at h; cases h; exact .inr (.inr ⟨hs, w, hd, rfl⟩)

/-- What the end of a cycle makes of a next state. -/
@[simp] theorem endOutcome_next (s : State) : endOutcome (.next s) = .next s.endCycle := rfl

theorem State.endCycle_of_halted {s : State} (h : s.halted = true) : s.endCycle = s := by simp [State.endCycle, h]

theorem State.endCycle_of_running {s : State} (h : s.halted = false) : s.endCycle = s.tick := by
  simp [State.endCycle, h]

@[simp] theorem State.endCycle_v (s : State) : s.endCycle.v = s.v := by unfold State.endCycle; split <;> rfl

@[simp] theorem State.endCycle_i (s : State) : s.endCycle.i = s.i := by unfold State.endCycle; split <;> rfl

@[simp] theorem State.endCycle_pc (s : State) : s.endCycle.pc = s.pc := by unfold State.endCycle; split <;> rfl

@[simp] theorem State.endCycle_sp (s : State) : s.endCycle.sp = s.sp := by unfold State.endCycle; split <;> rfl

@[simp] theorem State.endCycle_stack (s : State) : s.endCycle.stack = s.stack := by unfold State.endCycle; split <;> rfl

@[simp] theorem State.endCycle_fb (s : State) : s.endCycle.fb = s.fb := by unfold State.endCycle; split <;> rfl

@[simp] theorem State.endCycle_redraw (s : State) : s.endCycle.redraw = s.redraw := by unfold State.endCycle; split <;> rfl

@[simp] theorem State.endCycle_key (s : State) : s.endCycle.key = s.key := by unfold State.endCycle; split <;> rfl

@[simp] theorem State.endCycle_halted (s : State) : s.endCycle.halted = s.halted := by unfold State.endCycle; split <;> rfl

@[simp] theorem State.endCycle_keywait (s : State) : s.endCycle.keywait = s.keywait := by unfold State.endCycle; split <;> rfl

@[simp] theorem State.endCycle_mem (s : State) : s.endCycle.mem = s.mem := by unfold State.endCycle; split <;> rfl

@[simp] theorem State.endCycle_diag (s : State) : s.endCycle.diag = s.diag := by unfold State.endCycle; split <;> rfl

@[simp] theorem State.endCycle_opc (s : State) : s.endCycle.opc = s.opc := by unfold State.endCycle; split <;> rfl

@[simp] theorem State.endCycle_draws (s : State) : s.endCycle.draws = s.draws := by unfold State.endCycle; split <;> rfl

@[simp] theorem State.endCycle_cfg (s : State) : s.endCycle.cfg = s.cfg := by unfold State.endCycle; split <;> rfl

@[simp] theorem State.endCycle_reg (s : State) (r : RegId) : s.endCycle.reg r = s.reg r := by
  simp only [State.reg, State.endCycle_v]

@[simp] theorem State.endCycle_byteAt (s : State) (a : Nat) : s.endCycle.byteAt a = s.byteAt a := by
  simp only [State.byteAt, State.endCycle_mem, State.endCycle_cfg]

end Sys2Proof.Machine
end

