-- ==== Sys2Proof/Laws/Commute.lean ====
section
/-! SUPPORT. The keys ride along: the operations that do not read them do the same whatever they are. The same of the
advance and the memory. -/

namespace Sys2Proof.Machine

theorem State.advance_withKey (s : State) (f : Flow) (κ : Vector Bool 16) :
    State.advance { s with key := κ } f = { s.advance f with key := κ } := by cases f <;> rfl

theorem State.advance_withMem (s : State) (f : Flow) (m : Memory) :
    State.advance { s with mem := m } f = { s.advance f with mem := m } := by cases f <;> rfl

theorem State.noteAddr_withKey (s : State) (a : Nat) (κ : Vector Bool 16) :
    State.noteAddr { s with key := κ } a = { s.noteAddr a with key := κ } := by
  unfold State.noteAddr; split <;> rfl

theorem State.memWrite_withKey (s : State) (a : Nat) (b : Byte) (κ : Vector Bool 16) :
    State.memWrite { s with key := κ } a b = { s.memWrite a b with key := κ } := by
  simp only [State.memWrite, State.noteAddr_withKey]; rfl

theorem State.storeRegs_withKey (s : State) (κ : Vector Bool 16) (n : Nat) :
    State.storeRegs { s with key := κ } n = { s.storeRegs n with key := κ } := by
  induction n with
  | zero => rfl
  | succ n ih => rw [State.storeRegs, ih, State.memWrite_withKey]; rfl

theorem State.loadRegs_withKey (s : State) (κ : Vector Bool 16) (n : Nat) :
    State.loadRegs { s with key := κ } n = { s.loadRegs n with key := κ } := by
  induction n with
  | zero => rfl
  | succ n ih => simp only [State.loadRegs, ih, State.memRead, State.noteAddr_withKey]; rfl

theorem State.drawRows_withKey (s : State) (κ : Vector Bool 16) (cx cy n : Nat) :
    State.drawRows { s with key := κ } cx cy n =
      ({ (s.drawRows cx cy n).1 with key := κ }, (s.drawRows cx cy n).2) := by
  induction n with
  | zero => rfl
  | succ n ih => simp only [State.drawRows, ih, State.memRead, State.noteAddr_withKey]; rfl

end Sys2Proof.Machine
end

