-- ==== Sys2Proof/Laws/Decode.lean ====
section
/-! SUPPORT. The first level of the decoder, category by category (spec/30_encoding.md R73): what `decode` is once the
top nibble is known, and that there are no other categories. -/

namespace Sys2Proof

theorem decode_category_0 {b : BulkTransfer} {w : Word} (h : fieldTop w = 0x0) : decode b w = decode0 w := by
  simp [decode, h]

theorem decode_category_1 {b : BulkTransfer} {w : Word} (h : fieldTop w = 0x1) : decode b w = .instr (.jp (fieldNnn w)) := by
  simp [decode, h]

theorem decode_category_2 {b : BulkTransfer} {w : Word} (h : fieldTop w = 0x2) : decode b w = .instr (.call (fieldNnn w)) := by
  simp [decode, h]

theorem decode_category_3 {b : BulkTransfer} {w : Word} (h : fieldTop w = 0x3) : decode b w = .instr (.seImm (fieldX w) (fieldKk w)) := by
  simp [decode, h]

theorem decode_category_4 {b : BulkTransfer} {w : Word} (h : fieldTop w = 0x4) : decode b w = .instr (.sneImm (fieldX w) (fieldKk w)) := by
  simp [decode, h]

theorem decode_category_5 {b : BulkTransfer} {w : Word} (h : fieldTop w = 0x5) : decode b w = .instr (.seReg (fieldX w) (fieldY w)) := by
  simp [decode, h]

theorem decode_category_6 {b : BulkTransfer} {w : Word} (h : fieldTop w = 0x6) : decode b w = .instr (.ldImm (fieldX w) (fieldKk w)) := by
  simp [decode, h]

theorem decode_category_7 {b : BulkTransfer} {w : Word} (h : fieldTop w = 0x7) : decode b w = .instr (.addImm (fieldX w) (fieldKk w)) := by
  simp [decode, h]

theorem decode_category_8 {b : BulkTransfer} {w : Word} (h : fieldTop w = 0x8) : decode b w = decode8 w := by
  simp [decode, h]

theorem decode_category_9 {b : BulkTransfer} {w : Word} (h : fieldTop w = 0x9) : decode b w = .instr (.sneReg (fieldX w) (fieldY w)) := by
  simp [decode, h]

theorem decode_category_A {b : BulkTransfer} {w : Word} (h : fieldTop w = 0xA) : decode b w = .instr (.ldI (fieldNnn w)) := by
  simp [decode, h]

theorem decode_category_B {b : BulkTransfer} {w : Word} (h : fieldTop w = 0xB) : decode b w = .instr (.jpV0 (fieldNnn w)) := by
  simp [decode, h]

theorem decode_category_C {b : BulkTransfer} {w : Word} (h : fieldTop w = 0xC) : decode b w = .instr (.rnd (fieldX w) (fieldKk w)) := by
  simp [decode, h]

theorem decode_category_D {b : BulkTransfer} {w : Word} (h : fieldTop w = 0xD) : decode b w = .instr (.drw (fieldX w) (fieldY w) (fieldN w)) := by
  simp [decode, h]

theorem decode_category_E {b : BulkTransfer} {w : Word} (h : fieldTop w = 0xE) : decode b w = decodeE w := by
  simp [decode, h]

theorem decode_category_F {b : BulkTransfer} {w : Word} (h : fieldTop w = 0xF) : decode b w = decodeF b w := by
  simp [decode, h]

/-- The sixteen categories. -/
theorem fieldTop_cases (w : Word) : fieldTop w = 0x0 ∨ fieldTop w = 0x1 ∨ fieldTop w = 0x2 ∨ fieldTop w = 0x3 ∨
    fieldTop w = 0x4 ∨ fieldTop w = 0x5 ∨ fieldTop w = 0x6 ∨ fieldTop w = 0x7 ∨ fieldTop w = 0x8 ∨ fieldTop w = 0x9 ∨
    fieldTop w = 0xA ∨ fieldTop w = 0xB ∨ fieldTop w = 0xC ∨ fieldTop w = 0xD ∨ fieldTop w = 0xE ∨
    fieldTop w = 0xF := by
  have := fieldTop_lt w
  omega

end Sys2Proof
end

