-- ==== Sys2Proof/Laws/PerInstr.lean ====
section
/-! SUPPORT. Per instruction: the encoder's word carries the fixed bits of its row of the opcode map
(spec/30_encoding.md R74). -/

namespace Sys2Proof.Laws.RowBits

/-- `encode i & mask == match`, for the row of `i`. -/
def Statement (i : Instr) : Prop := encode i &&& i.row.mask = i.row.pattern

theorem cls : Statement (.cls) :=
  (row_F0FF _ (t := 0) (k := 224) (by decide) (by decide)).2 ⟨fieldTop_wordXkk (by decide) _ _, slice_7_0_wordXkk _ _ _⟩

theorem ret : Statement (.ret) :=
  (row_F0FF _ (t := 0) (k := 238) (by decide) (by decide)).2 ⟨fieldTop_wordXkk (by decide) _ _, slice_7_0_wordXkk _ _ _⟩

theorem jp (nnn : BitVec 12) : Statement (.jp nnn) :=
  (row_F000 _ (t := 1) (by decide)).2 (fieldTop_wordNnn (by decide) _)

theorem call (nnn : BitVec 12) : Statement (.call nnn) :=
  (row_F000 _ (t := 2) (by decide)).2 (fieldTop_wordNnn (by decide) _)

theorem seImm (x : RegId) (kk : Byte) : Statement (.seImm x kk) :=
  (row_F000 _ (t := 3) (by decide)).2 (fieldTop_wordXkk (by decide) _ _)

theorem sneImm (x : RegId) (kk : Byte) : Statement (.sneImm x kk) :=
  (row_F000 _ (t := 4) (by decide)).2 (fieldTop_wordXkk (by decide) _ _)

theorem seReg (x : RegId) (y : RegId) : Statement (.seReg x y) :=
  (row_F000 _ (t := 5) (by decide)).2 (fieldTop_wordXyn (by decide) _ _ _)

theorem ldImm (x : RegId) (kk : Byte) : Statement (.ldImm x kk) :=
  (row_F000 _ (t := 6) (by decide)).2 (fieldTop_wordXkk (by decide) _ _)

theorem addImm (x : RegId) (kk : Byte) : Statement (.addImm x kk) :=
  (row_F000 _ (t := 7) (by decide)).2 (fieldTop_wordXkk (by decide) _ _)

theorem ldReg (x : RegId) (y : RegId) : Statement (.ldReg x y) :=
  (row_F00F _ (t := 8) (n := 0) (by decide) (by decide)).2 ⟨fieldTop_wordXyn (by decide) _ _ _, slice_3_0_wordXyn _ _ _ _⟩

theorem orReg (x : RegId) (y : RegId) : Statement (.orReg x y) :=
  (row_F00F _ (t := 8) (n := 1) (by decide) (by decide)).2 ⟨fieldTop_wordXyn (by decide) _ _ _, slice_3_0_wordXyn _ _ _ _⟩

theorem andReg (x : RegId) (y : RegId) : Statement (.andReg x y) :=
  (row_F00F _ (t := 8) (n := 2) (by decide) (by decide)).2 ⟨fieldTop_wordXyn (by decide) _ _ _, slice_3_0_wordXyn _ _ _ _⟩

theorem xorReg (x : RegId) (y : RegId) : Statement (.xorReg x y) :=
  (row_F00F _ (t := 8) (n := 3) (by decide) (by decide)).2 ⟨fieldTop_wordXyn (by decide) _ _ _, slice_3_0_wordXyn _ _ _ _⟩

theorem addReg (x : RegId) (y : RegId) : Statement (.addReg x y) :=
  (row_F00F _ (t := 8) (n := 4) (by decide) (by decide)).2 ⟨fieldTop_wordXyn (by decide) _ _ _, slice_3_0_wordXyn _ _ _ _⟩

theorem sub (x : RegId) (y : RegId) : Statement (.sub x y) :=
  (row_F00F _ (t := 8) (n := 5) (by decide) (by decide)).2 ⟨fieldTop_wordXyn (by decide) _ _ _, slice_3_0_wordXyn _ _ _ _⟩

theorem shr (x : RegId) : Statement (.shr x) :=
  (row_F00F _ (t := 8) (n := 6) (by decide) (by decide)).2 ⟨fieldTop_wordXyn (by decide) _ _ _, slice_3_0_wordXyn _ _ _ _⟩

theorem subn (x : RegId) (y : RegId) : Statement (.subn x y) :=
  (row_F00F _ (t := 8) (n := 7) (by decide) (by decide)).2 ⟨fieldTop_wordXyn (by decide) _ _ _, slice_3_0_wordXyn _ _ _ _⟩

theorem shl (x : RegId) : Statement (.shl x) :=
  (row_F00F _ (t := 8) (n := 14) (by decide) (by decide)).2 ⟨fieldTop_wordXyn (by decide) _ _ _, slice_3_0_wordXyn _ _ _ _⟩

theorem sneReg (x : RegId) (y : RegId) : Statement (.sneReg x y) :=
  (row_F000 _ (t := 9) (by decide)).2 (fieldTop_wordXyn (by decide) _ _ _)

theorem ldI (nnn : BitVec 12) : Statement (.ldI nnn) :=
  (row_F000 _ (t := 10) (by decide)).2 (fieldTop_wordNnn (by decide) _)

theorem jpV0 (nnn : BitVec 12) : Statement (.jpV0 nnn) :=
  (row_F000 _ (t := 11) (by decide)).2 (fieldTop_wordNnn (by decide) _)

theorem rnd (x : RegId) (kk : Byte) : Statement (.rnd x kk) :=
  (row_F000 _ (t := 12) (by decide)).2 (fieldTop_wordXkk (by decide) _ _)

theorem drw (x : RegId) (y : RegId) (n : Fin 16) : Statement (.drw x y n) :=
  (row_F000 _ (t := 13) (by decide)).2 (fieldTop_wordXyn (by decide) _ _ _)

theorem skp (x : RegId) : Statement (.skp x) :=
  (row_F0FF _ (t := 14) (k := 158) (by decide) (by decide)).2 ⟨fieldTop_wordXkk (by decide) _ _, slice_7_0_wordXkk _ _ _⟩

theorem sknp (x : RegId) : Statement (.sknp x) :=
  (row_F0FF _ (t := 14) (k := 161) (by decide) (by decide)).2 ⟨fieldTop_wordXkk (by decide) _ _, slice_7_0_wordXkk _ _ _⟩

theorem ldVxDt (x : RegId) : Statement (.ldVxDt x) :=
  (row_F0FF _ (t := 15) (k := 7) (by decide) (by decide)).2 ⟨fieldTop_wordXkk (by decide) _ _, slice_7_0_wordXkk _ _ _⟩

theorem ldVxK (x : RegId) : Statement (.ldVxK x) :=
  (row_F0FF _ (t := 15) (k := 10) (by decide) (by decide)).2 ⟨fieldTop_wordXkk (by decide) _ _, slice_7_0_wordXkk _ _ _⟩

theorem ldDtVx (x : RegId) : Statement (.ldDtVx x) :=
  (row_F0FF _ (t := 15) (k := 21) (by decide) (by decide)).2 ⟨fieldTop_wordXkk (by decide) _ _, slice_7_0_wordXkk _ _ _⟩

theorem ldStVx (x : RegId) : Statement (.ldStVx x) :=
  (row_F0FF _ (t := 15) (k := 24) (by decide) (by decide)).2 ⟨fieldTop_wordXkk (by decide) _ _, slice_7_0_wordXkk _ _ _⟩

theorem addIVx (x : RegId) : Statement (.addIVx x) :=
  (row_F0FF _ (t := 15) (k := 30) (by decide) (by decide)).2 ⟨fieldTop_wordXkk (by decide) _ _, slice_7_0_wordXkk _ _ _⟩

theorem ldFVx (x : RegId) : Statement (.ldFVx x) :=
  (row_F0FF _ (t := 15) (k := 41) (by decide) (by decide)).2 ⟨fieldTop_wordXkk (by decide) _ _, slice_7_0_wordXkk _ _ _⟩

theorem ldBVx (x : RegId) : Statement (.ldBVx x) :=
  (row_F0FF _ (t := 15) (k := 51) (by decide) (by decide)).2 ⟨fieldTop_wordXkk (by decide) _ _, slice_7_0_wordXkk _ _ _⟩

theorem ldMiVx (x : RegId) : Statement (.ldMiVx x) :=
  (row_F0FF _ (t := 15) (k := 85) (by decide) (by decide)).2 ⟨fieldTop_wordXkk (by decide) _ _, slice_7_0_wordXkk _ _ _⟩

theorem ldVxMi (x : RegId) : Statement (.ldVxMi x) :=
  (row_F0FF _ (t := 15) (k := 101) (by decide) (by decide)).2 ⟨fieldTop_wordXkk (by decide) _ _, slice_7_0_wordXkk _ _ _⟩

end Sys2Proof.Laws.RowBits
end

