-- ==== Sys2Proof/Tests/Slice0.lean ====
section
/-! SUPPORT. The model's own tests. Expected results are those of spec/95_test_vectors.md (its id stands in each
comment) or are read by hand off the rule named. Each runs one cycle, or one port. -/

namespace Sys2Proof.Tests

open Sys2Proof.Machine

/-- Something read of the state an outcome gives. -/
def answer {α : Type} (o : Host.Outcome State Fault Refusal) (f : State → α) : Option α :=
  match o with
  | .next t => some (f t)
  | .fault _ => none
  | .refused _ => none

/-- Something read of the state after one cycle. -/
def after {α : Type} (s : State) (f : State → α) : Option α := answer (step s) f

/-- The reset state with a word at `pc`. -/
def boot (w : Nat) : State := State.reset.withFetchWord 16 w

/-- The reset state with registers set. -/
def withRegs (l : List (RegId × Byte)) : State := l.foldl (fun s p => s.setReg p.1 p.2) State.reset

/-- The reset state with registers and `I` set and a word at `pc`. -/
def run (l : List (RegId × Byte)) (i : Word) (w : Nat) : State :=
  ({ withRegs l with i := i } : State).withFetchWord 16 w

/-! ### Well-formedness smoke -/

theorem test_wf_refuses_store_bulk : (Instr.ldMiVx 3).wf .unsupported = false := by decide
theorem test_wf_refuses_load_bulk : (Instr.ldVxMi 3).wf .unsupported = false := by decide
theorem test_wf_accepts_bulk : (Instr.ldMiVx 3).wf .supported = true ∧ (Instr.ldVxMi 3).wf .supported = true := by
  decide

/-! ### Decoding: words written out from the patterns of R74 -/

theorem test_decode_0 :
    decode .supported 0b0000000011100000 = .instr .cls ∧ decode .supported 0b0000000011101110 = .instr .ret ∧
    decode .supported 0b0000011111100000 = .instr .cls ∧
    decode .supported 0x0000 = .unrecognized 0x0000 := by decide

theorem test_decode_jumps :
    decode .supported 0b0001001000110100 = .instr (.jp 0x234) ∧
    decode .supported 0b0010001100000001 = .instr (.call 0x301) ∧
    decode .supported 0b1011110000000101 = .instr (.jpV0 0xC05) := by decide

theorem test_decode_skips :
    decode .supported 0b0011001101000010 = .instr (.seImm 3 0x42) ∧
    decode .supported 0b0100001101000010 = .instr (.sneImm 3 0x42) ∧
    decode .supported 0b0101000100100000 = .instr (.seReg 1 2) ∧
    decode .supported 0b0101000100100111 = .instr (.seReg 1 2) ∧
    decode .supported 0b1001000100100000 = .instr (.sneReg 1 2) := by decide

theorem test_decode_loads :
    decode .supported 0b0110101001111011 = .instr (.ldImm 10 0x7B) ∧
    decode .supported 0b0111001100000001 = .instr (.addImm 3 1) ∧
    decode .supported 0b1010001011110000 = .instr (.ldI 0x2F0) ∧
    decode .supported 0b1100001100001111 = .instr (.rnd 3 0x0F) := by decide

theorem test_decode_alu_logic :
    decode .supported 0b1000000100100000 = .instr (.ldReg 1 2) ∧
    decode .supported 0b1000000100100001 = .instr (.orReg 1 2) ∧
    decode .supported 0b1000000100100010 = .instr (.andReg 1 2) ∧
    decode .supported 0b1000000100100011 = .instr (.xorReg 1 2) := by decide

theorem test_decode_alu_arith :
    decode .supported 0b1000000100100100 = .instr (.addReg 1 2) ∧
    decode .supported 0b1000000100100101 = .instr (.sub 1 2) ∧
    decode .supported 0b1000000100100110 = .instr (.shr 1) ∧
    decode .supported 0b1000000100100111 = .instr (.subn 1 2) ∧
    decode .supported 0b1000000100101110 = .instr (.shl 1) ∧
    decode .supported 0x8128 = .unrecognized 0x8128 := by decide

theorem test_decode_draw_and_keys :
    decode .supported 0b1101000100100101 = .instr (.drw 1 2 5) ∧
    decode .supported 0b1110000110011110 = .instr (.skp 1) ∧
    decode .supported 0b1110000110100001 = .instr (.sknp 1) ∧
    decode .supported 0xE19F = .unrecognized 0xE19F := by decide

theorem test_decode_timers :
    decode .supported 0b1111001100000111 = .instr (.ldVxDt 3) ∧
    decode .supported 0b1111001100001010 = .instr (.ldVxK 3) ∧
    decode .supported 0b1111001100010101 = .instr (.ldDtVx 3) ∧
    decode .supported 0b1111001100011000 = .instr (.ldStVx 3) := by decide

theorem test_decode_index :
    decode .supported 0b1111000100011110 = .instr (.addIVx 1) ∧
    decode .supported 0b1111000100101001 = .instr (.ldFVx 1) ∧
    decode .supported 0b1111000100110011 = .instr (.ldBVx 1) ∧
    decode .supported 0b1111000101010101 = .instr (.ldMiVx 1) ∧
    decode .supported 0b1111000101100101 = .instr (.ldVxMi 1) ∧
    decode .unsupported 0xF155 = .unrecognized 0xF155 := by decide

theorem test_decode_bytes_takes_two :
    decodeBytes .supported [0x61, 0x02, 0xFF] = .opcode (.instr (.ldImm 1 2)) [0xFF] ∧
    decodeBytes .supported [0x61] = .truncated := by decide

theorem test_decodeTableWord : decodeTableWord 16 0xD125 = some (.drw 1 2 5) := by decide

/-! ### Control flow -/

/-- F9 of section 2.3. -/
theorem test_ret :
    after (({ State.reset with sp := 1, stack := State.reset.stack.set 0 0x0204, pc := 0x0300 } :
        State).withFetchWord 16 0x00EE) (fun t => (t.sp, t.pc)) = some (0, 0x0206) := by decide

/-- F8: a popped 0xFFFE returns to 0. -/
theorem test_ret_wraps :
    after (({ State.reset with sp := 1, stack := State.reset.stack.set 0 0xFFFE } : State).withFetchWord 16 0x00EE)
      (fun t => t.pc) = some 0 := by decide

/-- F7, by R242: an underflow halts, with no tick. -/
theorem test_ret_underflow_halts :
    after (({ State.reset with dt := 5 } : State).withFetchWord 16 0x00EE)
      (fun t => (t.halted, t.pc, t.dt, t.diag)) = some (true, 0x0200, 5, [.stackUnderflow 0x0200]) := by decide

/-- The example of R131. -/
theorem test_jp : after (boot 0x1234) (fun t => t.pc) = some 0x0234 := by decide

/-- The example of R132. -/
theorem test_call : after (boot 0x2300) (fun t => (t.stack[0], t.sp, t.pc)) = some (0x0200, 1, 0x0300) := by decide

/-- R132, R242 under `IGNORE`: the seventeenth call is a no-op. -/
theorem test_call_overflow_ignored :
    after (({ State.reset with sp := 16, cfg := { Config.default with stackPolicy := .ignore }, dt := 5 } :
        State).withFetchWord 16 0x2300) (fun t => (t.halted, t.pc, t.sp, t.dt, t.diag)) =
      some (false, 0x0202, 16, 4, [.stackOverflow 0x0200]) := by decide

/-- W7. -/
theorem test_seImm : after (run [(3, 0x42)] 0 0x3342) (fun t => t.pc) = some 0x0204 := by decide
theorem test_seImm_no : after (run [(3, 0x41)] 0 0x3342) (fun t => t.pc) = some 0x0202 := by decide
theorem test_sneImm : after (run [(3, 0x41)] 0 0x4342) (fun t => t.pc) = some 0x0204 := by decide
theorem test_sneImm_no : after (run [(3, 0x42)] 0 0x4342) (fun t => t.pc) = some 0x0202 := by decide
theorem test_seReg : after (run [(1, 7), (2, 7)] 0 0x5120) (fun t => t.pc) = some 0x0204 := by decide
theorem test_seReg_no : after (run [(1, 7), (2, 8)] 0 0x5120) (fun t => t.pc) = some 0x0202 := by decide
theorem test_sneReg : after (run [(1, 7), (2, 8)] 0 0x9120) (fun t => t.pc) = some 0x0204 := by decide
theorem test_sneReg_no : after (run [(1, 7), (2, 7)] 0 0x9120) (fun t => t.pc) = some 0x0202 := by decide

/-- F11, F12. -/
theorem test_jpV0 : after (run [(0, 0xFF)] 0 0xBFFF) (fun t => t.pc) = some 0x10FE := by decide
theorem test_jpV0_odd : after (run [(0, 1), (5, 0x99)] 0 0xB500) (fun t => t.pc) = some 0x0501 := by decide

/-! ### ALU -/

/-- W1. -/
theorem test_ldImm : after (boot 0x6A7B) (fun t => (t.reg 10, t.pc)) = some (0x7B, 0x0202) := by decide
/-- A1, A2. -/
theorem test_addImm : after (run [(1, 0x10), (15, 5)] 0 0x71FF) (fun t => (t.reg 1, t.reg 15)) = some (0x0F, 5) := by
  decide
theorem test_addImm_vf : after (run [(15, 0xFF)] 0 0x7F01) (fun t => t.reg 15) = some 0 := by decide
/-- A3. -/
theorem test_ldReg : after (run [(2, 0x33)] 0 0x8120) (fun t => (t.reg 1, t.reg 2)) = some (0x33, 0x33) := by decide
/-- A4, A5, A6. -/
theorem test_or : after (run [(1, 0x0F), (2, 0xF0), (15, 1)] 0 0x8121) (fun t => (t.reg 1, t.reg 15)) =
    some (0xFF, 1) := by decide
theorem test_and : after (run [(1, 0x3C), (2, 0x0F)] 0 0x8122) (fun t => t.reg 1) = some 0x0C := by decide
theorem test_xor : after (run [(1, 0x3C)] 0 0x8113) (fun t => t.reg 1) = some 0 := by decide
/-- A9, A10. -/
theorem test_addReg_into_vf : after (run [(15, 0x10), (1, 0xF5)] 0 0x8F14) (fun t => t.reg 15) = some 1 := by decide
theorem test_addReg_from_vf : after (run [(1, 0x10), (15, 0xF0)] 0 0x81F4) (fun t => (t.reg 1, t.reg 15)) =
    some (0, 1) := by decide
/-- W4, A12. -/
theorem test_sub : after (run [(1, 1), (2, 2)] 0 0x8125) (fun t => (t.reg 1, t.reg 15)) = some (0xFF, 0) := by decide
theorem test_sub_into_vf : after (run [(15, 0), (2, 1)] 0 0x8F25) (fun t => t.reg 15) = some 0 := by decide
/-- A15, A16. -/
theorem test_shr : after (run [(1, 4), (2, 0xFF)] 0 0x8126) (fun t => (t.reg 1, t.reg 15)) = some (2, 0) := by decide
theorem test_shr_vf : after (run [(15, 3)] 0 0x8F06) (fun t => t.reg 15) = some 1 := by decide
/-- A17, A18. -/
theorem test_subn : after (run [(1, 1), (2, 2)] 0 0x8127) (fun t => (t.reg 1, t.reg 15)) = some (1, 1) := by decide
theorem test_subn_borrow : after (run [(1, 2), (2, 1)] 0 0x8127) (fun t => (t.reg 1, t.reg 15)) = some (0xFF, 0) := by
  decide
/-- A20, A21. -/
theorem test_shl : after (run [(1, 0x7F)] 0 0x810E) (fun t => (t.reg 1, t.reg 15)) = some (0xFE, 0) := by decide
theorem test_shl_vf : after (run [(15, 0x80)] 0 0x8F0E) (fun t => t.reg 15) = some 1 := by decide
/-- A22 to A24, for whatever byte is drawn. -/
theorem test_rnd : after (boot 0xC30F) (fun t => (t.reg 3, t.draws)) = some (Config.randByte 0 &&& 0x0F, 1) := rfl

/-! ### Index and memory -/

/-- M1. -/
theorem test_ldI : after (run [] 0x0123 0xA2F0) (fun t => t.i) = some 0x02F0 := by decide
/-- M4, M7. -/
theorem test_addI_wraps : after (run [(1, 2)] 0xFFFF 0xF11E) (fun t => (t.i, t.reg 15)) = some (1, 1) := by decide
theorem test_addI_vf : after (run [(15, 0x10)] 0x0FF0 0xFF1E) (fun t => (t.i, t.reg 15)) = some (0x1000, 1) := by
  decide
/-- M8, M11. -/
theorem test_ldF : after (run [(0, 0x0A)] 0 0xF029) (fun t => t.i) = some 0x0032 := by decide
theorem test_ldF_past_font : after (run [(0, 0xFF)] 0 0xF029) (fun t => t.i) = some 0x04FB := by decide
/-- M13, M15. -/
theorem test_bcd : after (run [(5, 0xFF)] 0x0300 0xF533)
    (fun t => (t.byteAt 0x300, t.byteAt 0x301, t.byteAt 0x302, t.i)) = some (2, 5, 5, 0x0300) := by decide
theorem test_bcd_clamped : after (run [(5, 0x7B)] 0x0FFE 0xF533)
    (fun t => (t.byteAt 0xFFE, t.byteAt 0xFFF, t.diag)) = some (1, 3, [.addressOutOfRange 0x1000]) := by decide
/-- M17. -/
theorem test_storeRegs : after (run [(0, 0x11), (1, 0x22), (2, 0x33), (3, 0x44)] 0x0400 0xF255)
    (fun t => ((List.range 4).map (fun k => t.byteAt (0x400 + k)), t.i)) = some ([0x11, 0x22, 0x33, 0], 0x0400) := by
  decide
/-- M22: with bulk transfers unsupported the word is unrecognized. -/
theorem test_storeRegs_unsupported :
    after (({ State.reset with cfg := { Config.default with bulk := .unsupported } } : State).withFetchWord 16 0xF255)
      (fun t => (t.diag, t.pc)) = some ([.decodeFailure 0xF255], 0x0202) := by decide
/-- M20. -/
theorem test_loadRegs_clamped :
    after ((({ State.reset with i := 0x0FFF } : State).place 0xFFF 0x5C).withFetchWord 16 0xF265)
      (fun t => (t.reg 0, t.reg 1, t.reg 2, t.reg 3, t.diag)) =
      some (0x5C, 0x5C, 0x5C, 0, [.addressOutOfRange 0x1000, .addressOutOfRange 0x1001]) := by decide
/-- The font glyph 0 loaded from address 0 (R34, R186). -/
theorem test_loadRegs_font : after (run [] 0 0xF265) (fun t => (t.reg 0, t.reg 1, t.reg 2)) =
    some (0xF0, 0x90, 0x90) := by decide
/-- M16: the address policy `MASK`. -/
theorem test_bcd_masked :
    after (({ (withRegs [(5, 0x7B)]) with i := 0x0FFE, cfg := { Config.default with addrPolicy := .mask } } :
        State).withFetchWord 16 0xF533) (fun t => (t.byteAt 0xFFE, t.byteAt 0xFFF, t.byteAt 0)) = some (1, 2, 3) := by
  decide

/-! ### Display -/

/-- D8. -/
theorem test_cls : after (({ (withRegs [(15, 7)]) with fb := State.reset.fb.flip 3 4 } : State).withFetchWord 16 0x00E0)
    (fun t => (t.pixel 3 4, t.redraw, t.reg 15)) = some (false, true, 7) := by decide
/-- D2: one row of glyph 0 at column 63, row 31. -/
theorem test_drw_wraps : after (run [(1, 0xFF), (2, 0xFF)] 0 0xD121)
    (fun t => ((t.pixel 31 63, t.pixel 31 0, t.pixel 31 2, t.pixel 31 3), t.reg 15, t.redraw)) =
    some ((true, true, true, false), 0, true) := by decide
/-- D4: a pixel goes from 1 to 0. -/
theorem test_drw_collides :
    after ((({ State.reset with i := 0x300, fb := State.reset.fb.flip 0 0 } : State).place 0x300 0x80).withFetchWord 16
      0xD001) (fun t => (t.pixel 0 0, t.reg 15)) = some (false, 1) := by decide

/-! ### Timers and keys -/

/-- T1. -/
theorem test_ldVxDt : after (({ State.reset with dt := 0x10 } : State).withFetchWord 16 0xF307)
    (fun t => (t.reg 3, t.dt)) = some (0x10, 0x0F) := by decide
/-- T3, T5. -/
theorem test_ldDtVx : after (run [(2, 5)] 0 0xF215) (fun t => t.dt) = some 4 := by decide
theorem test_ldDtVx_zero : after (run [(2, 0)] 0 0xF215) (fun t => t.dt) = some 0 := by decide
/-- T6, T7. -/
theorem test_ldStVx_tone : after (run [(2, 2)] 0 0xF218) (fun t => (t.st, t.tone)) = some (1, true) := by decide
theorem test_ldStVx_no_tone : after (run [(2, 1)] 0 0xF218) (fun t => (t.st, t.tone)) = some (0, false) := by decide
/-- T11. -/
theorem test_skp : after (({ (withRegs [(1, 0x15)]) with key := State.reset.key.set 5 true } : State).withFetchWord 16
    0xE19E) (fun t => t.pc) = some 0x0204 := by decide
/-- T13. -/
theorem test_sknp : after (({ (withRegs [(1, 5)]) with key := State.reset.key.set 5 true } : State).withFetchWord 16
    0xE1A1) (fun t => t.pc) = some 0x0202 := by decide
theorem test_sknp_up : after (run [(1, 5)] 0 0xE1A1) (fun t => t.pc) = some 0x0204 := by decide
/-- T14, T16. -/
theorem test_key_least : after (({ State.reset with key := (State.reset.key.set 3 true).set 1 true, keywait := true } :
    State).withFetchWord 16 0xF40A) (fun t => (t.reg 4, t.pc, t.keywait)) = some (1, 0x0202, false) := by decide
theorem test_key_wait : after (({ (withRegs [(4, 9)]) with dt := 5 } : State).withFetchWord 16 0xF40A)
    (fun t => (t.reg 4, t.pc, t.keywait, t.dt)) = some (9, 0x0200, true, 4) := by decide

/-! ### The cycle and the ports -/

/-- I2: the first cycle of an empty image. -/
theorem test_first_cycle_of_reset : after State.reset (fun t => (t.diag, t.pc)) =
    some ([.decodeFailure 0], 0x0202) := by decide
/-- P6, cycle 3: a fetch above 0xFFF under `CLAMP`. -/
theorem test_fetch_clamped : after ({ State.reset with pc := 0x1000 } : State) (fun t => (t.diag, t.pc)) =
    some ([.addressOutOfRange 0x1000, .addressOutOfRange 0x1001, .decodeFailure 0], 0x1002) := by decide
/-- P6 under `MASK`: the fetch wraps to the font. -/
theorem test_fetch_masked :
    after ({ State.reset with pc := 0x1000, cfg := { Config.default with addrPolicy := .mask } } : State)
      (fun t => t.diag) =
    some [.addressOutOfRange 0x1000, .addressOutOfRange 0x1001, .decodeFailure 0xF090] := by decide
/-- P4: a halted engine's cycle. -/
theorem test_halted_cycle : after ({ State.reset with halted := true, dt := 5, diag := [.stackOverflow 0x200] } : State)
    (fun t => (t.dt, t.pc, t.diag)) = some (5, 0x0200, []) := by decide
/-- I1, I4. -/
theorem test_init : answer (portInit [0x12, 0x00] ({ State.reset with key := State.reset.key.set 4 true } : State))
    (fun t => (t.byteAt 0x200, t.byteAt 0x201, t.byteAt 0, t.key[4], t.pc)) =
    some (0x12, 0, 0xF0, false, 0x0200) := by decide
/-- I3: `initialize` ends the halt. -/
theorem test_init_ends_halt : answer (portInit [0x22, 0x00] ({ State.reset with halted := true, sp := 16 } : State))
    (fun t => (t.halted, t.sp, t.pc)) = some (false, 0, 0x0200) := by decide
/-- R40: `REDRAW_ACK` answers and clears. -/
theorem test_redraw_ack : (portRedrawAck ({ State.reset with redraw := true } : State)).1 = true ∧
    (portRedrawAck ({ State.reset with redraw := true } : State)).2.redraw = false := by decide

/-! ### Witnesses: states and operands that meet the hypotheses of the statements, at the edges of each clause -/

/-- The reset state with `sp` entries, a word at `pc`, under a stack policy. -/
def stacked (sp : Fin 17) (p : StackFaultPolicy) (w : Nat) : State :=
  let cfg : Config := { Config.default with stackPolicy := p }
  ({ State.cleared cfg 0 with sp := sp, stack := Vector.replicate 16 0xFFFE } : State).withFetchWord 16 w

/-- A waiting engine: `KEYWAIT` set at `Fx0A`. -/
def waiting : State := { boot 0xF40A with keywait := true }

/-- A halted engine. -/
def stopped : State := { State.reset with halted := true, dt := 5, diag := [.stackOverflow 0x200] }

/-- `InitGivesEveryPieceItsValue`: the empty image and one that fills memory. -/
theorem witness_init : (([] : List Byte).length ≤ 3584 ∧ ∃ t, portInit [] stopped = .next t) ∧
    (List.replicate 3584 (0xFF : Byte)).length ≤ 3584 ∧ ∃ t, portInit (List.replicate 3584 0xFF) stopped = .next t :=
  ⟨⟨by decide, _, rfl⟩, le_of_eq List.length_replicate, _, if_pos (le_of_eq List.length_replicate)⟩

/-- The encoding statements: a row of `BULK_TRANSFER` and one that always exists; a decoded and an unrecognized word. -/
theorem witness_encoding : (Instr.ldMiVx 15).wf .supported = true ∧ (Instr.jp 0xFFF).wf .unsupported = true ∧
    decode .unsupported 0x1FFF = .instr (.jp 0xFFF) ∧ decode .unsupported 0xFF55 = .unrecognized 0xFF55 := by decide

/-- `UnusedBitsAreIgnored`, each clause. -/
theorem witness_unused_bits :
    (decode .supported 0x00E0 = .instr .cls ∧ fieldTop 0x00E0 = 0 ∧ fieldTop 0x0FE0 = 0 ∧
      fieldKk 0x0FE0 = fieldKk 0x00E0) ∧
    (decode .supported 0x9120 = .instr (.sneReg 1 2) ∧ fieldTop 0x9120 = 9 ∧ slice 0x912F 15 4 = slice 0x9120 15 4) ∧
    (decode .supported 0x8106 = .instr (.shr 1) ∧ fieldN 0x8106 = 6 ∧ slice 0x81F6 15 8 = slice 0x8106 15 8 ∧
      fieldN 0x81F6 = fieldN 0x8106) ∧
    decode .supported 0xFF07 = .instr (.ldVxDt 15) ∧ fieldTop 0xFF07 = 0xF := by decide

/-- `BoundClampsOrMasks`, each clause at its edge. -/
theorem witness_bound : (0xFFF ≤ 0xFFF ∧ State.reset.bound 0xFFF = 0xFFF) ∧
    (State.reset.cfg.addrPolicy = .clamp ∧ State.reset.bound 0x1000 = 0xFFF) ∧
    boundAddr .mask 0x1000 = 0 ∧ boundAddr .mask 0x100FE = 0x0FE := by decide

/-- `CanonicalMemoriesAreDetermined`: a canonical memory that is not empty. -/
theorem witness_canonical : Memory.wf defaultFont [(0, 0x01), (0x200, 0x12)] := by decide

/-- `StoredBytesAreFetched`: `pc` at the reset value and at the last address whose word lies in memory. -/
theorem witness_stored_bytes : State.reset.bound 0x200 ≠ State.reset.bound 0x201 ∧
    State.reset.bound 0xFFE ≠ State.reset.bound 0xFFF := by decide

/-- `StepRunsTheDecodedInstruction`: an instruction that goes on, and one that halts. -/
theorem witness_step :
    ((boot 0x00E0).halted = false ∧ decode .supported (boot 0x00E0).fetchWord = .instr .cls ∧
      ∃ t, exec .cls (boot 0x00E0).clearDiag.fetch = .next t) ∧
    (boot 0x00EE).halted = false ∧ decode .supported (boot 0x00EE).fetchWord = .instr .ret ∧
      ∃ t, exec .ret (boot 0x00EE).clearDiag.fetch = .next t :=
  ⟨⟨by decide, by decide, _, rfl⟩, by decide, by decide, _, rfl⟩

/-- `UnrecognizedOpcodeIsALoggedNoOp`. -/
theorem witness_unrecognized : State.reset.halted = false ∧
    decode .supported State.reset.fetchWord = .unrecognized 0 := by decide

/-- `HaltedCycleDoesNothing`, `OnlyInitializeEndsAHalt`: a halted engine, a host action on it, `initialize`. -/
theorem witness_halted : stopped.halted = true ∧ (∃ t, hostAct (.keyIn 15 true) stopped = .next t) ∧
    (∃ t, portInit [0] stopped = .next t) ∧ ∃ t, step stopped = .next t :=
  ⟨rfl, ⟨_, rfl⟩, ⟨_, rfl⟩, _, rfl⟩

/-- `TickCountsDownAndSignalsTone`: timers at 0, at 2 and at 255. -/
theorem witness_tick : (State.reset.tick.dt = 0 ∧ State.reset.tick.st = 0 ∧ State.reset.tick.tone = false) ∧
    ((({ State.reset with dt := 255, st := 2 } : State).tick.dt = 254) ∧
      ({ State.reset with dt := 255, st := 2 } : State).tick.tone = true) := by decide

/-- `EveryCycleTicks`: a cycle of each clause. -/
theorem witness_ticks : (boot 0xF018).halted = false ∧
    after (boot 0xF018) (fun t => t.halted) = some false ∧
    decode .supported (boot 0xF018).fetchWord = .instr (.ldStVx 0) ∧
    decode .supported (boot 0xF015).fetchWord = .instr (.ldDtVx 0) ∧
    after (boot 0xF015) (fun t => t.halted) = some false := by decide

/-- `JumpSetsPc`: a jump to itself. -/
theorem witness_jump_to_itself : (boot 0x1200).halted = false ∧
    decode .supported (boot 0x1200).fetchWord = .instr (.jp 0x200) ∧ (0x200 : BitVec 12).toNat = (boot 0x1200).pc.toNat := by
  decide

/-- The rows of the 'stated' statements: a word of each, and `pc` at the last places that do not leave 16 bits. -/
theorem witness_rows : (0xFFFD + 2 ≤ 0xFFFF ∧ 0xFFFB + 4 ≤ 0xFFFF ∧ State.reset.pc.toNat + 4 ≤ 0xFFFF) ∧ (0x1FFF : Word) &&& 0xF000 = 0x1000 ∧ (0x3FFF : Word) &&& 0xF000 = 0x3000 ∧
    (0x4FFF : Word) &&& 0xF000 = 0x4000 ∧ (0x6FFF : Word) &&& 0xF000 = 0x6000 ∧ (0x8FF0 : Word) &&& 0xF00F = 0x8000 ∧
    (0x7FFF : Word) &&& 0xF000 = 0x7000 ∧ (0xAFFF : Word) &&& 0xF000 = 0xA000 ∧ (0xFF07 : Word) &&& 0xF0FF = 0xF007 := by
  decide

/-- The stack statements: a call with room for one, a return with one entry, and the four stack errors. -/
theorem witness_stack :
    ((stacked 15 .halt 0x2FFF).sp.val < 16 ∧ 0 < (stacked 1 .halt 0x00EE).sp.val) ∧
    ((stacked 16 .halt 0x2FFF).sp.val = 16 ∧ (stacked 16 .halt 0x2FFF).cfg.stackPolicy = .halt) ∧
    ((stacked 16 .ignore 0x2FFF).sp.val = 16 ∧ (stacked 16 .ignore 0x2FFF).cfg.stackPolicy = .ignore) ∧
    ((stacked 0 .halt 0x00EE).sp.val = 0 ∧ (stacked 0 .halt 0x00EE).cfg.stackPolicy = .halt) ∧
    (stacked 0 .ignore 0x00EE).sp.val = 0 ∧ (stacked 0 .ignore 0x00EE).cfg.stackPolicy = .ignore := by decide

/-- A call that takes the last entry, from the last word of the address range, and the return from it. -/
def calling : State := { stacked 15 .halt 0x2FFF with pc := 0xFFFE }

/-- `CallThenReturnComesBack`. -/
theorem witness_call_return : calling.sp.val < 16 ∧ ∃ t u : State, exec (.call 0xFFF) calling = .next t ∧
    u.sp = t.sp ∧ u.stack = t.stack ∧ answer (exec .ret u) (fun v => v.pc) = some 0 :=
  ⟨by decide, _, _, rfl, rfl, rfl, by decide⟩

/-- `HaltIsAPreciseStackError`: each of its two ends. -/
theorem witness_halt :
    ((stacked 0 .halt 0x00EE).halted = false ∧ after (stacked 0 .halt 0x00EE) (fun t => t.halted) = some true) ∧
    (stacked 16 .halt 0x2FFF).halted = false ∧ after (stacked 16 .halt 0x2FFF) (fun t => t.halted) = some true := by
  decide

/-- The statements about every instruction: each kind of advance answers a next state. -/
theorem witness_exec : (∃ t, exec (.skp 0) State.reset = .next t) ∧ (∃ t, exec (.ldVxK 0) State.reset = .next t) ∧
    (∃ t, exec (.addReg 15 15) State.reset = .next t) ∧ (∃ t, exec .ret State.reset = .next t) ∧
    ∃ t, exec (.ldVxMi 15) State.reset = .next t :=
  ⟨⟨_, rfl⟩, ⟨_, rfl⟩, ⟨_, rfl⟩, ⟨_, rfl⟩, _, rfl⟩

/-- The ALU statements: `x` other than `VF`, on both sides of the carry, and a bit of the byte. -/
theorem witness_alu : (0 : RegId) ≠ VF ∧ 7 < 8 ∧
    answer (exec (.addReg 0 1) (withRegs [(0, 0xFF), (1, 1)])) (fun t => (t.reg 0, t.reg VF)) = some (0, 1) ∧
    answer (exec (.addReg 0 1) (withRegs [(0, 0xFF), (1, 0)])) (fun t => (t.reg 0, t.reg VF)) = some (0xFF, 0) := by
  decide

/-- `RandomByteUnderMask` at the mask that leaves no bit free. -/
theorem witness_random : ∃ t, exec (.rnd 15 0) State.reset = .next t ∧ t.reg 15 = 0 :=
  ⟨_, rfl, by simp [State.reg, State.advance, State.setReg]⟩

/-- `StoreDecimalDigits`: three addresses, and the three that clamping makes one. -/
theorem witness_digits : (State.reset.bound 0x300 ≠ State.reset.bound 0x301 ∧
      State.reset.bound 0x301 ≠ State.reset.bound 0x302 ∧ State.reset.bound 0x300 ≠ State.reset.bound 0x302) ∧
    State.reset.bound 0xFFF = State.reset.bound 0x1001 := by decide

/-- `StoreRegisters`, `LoadRegisters`: all sixteen registers, at distinct addresses and at the one they clamp to. -/
theorem witness_bulk : (∀ j k : RegId, j < k → State.reset.bound (0xFF0 + k.val) ≠ State.reset.bound (0xFF0 + j.val)) ∧
    (∀ j : RegId, j ≤ 15) ∧ ¬(15 : RegId) < 15 ∧ (0 : RegId) < 1 ∧
    answer (exec (.ldMiVx 15) ({ withRegs [(0, 1), (15, 2)] with i := 0xFFF } : State)) (fun t => t.byteAt 0xFFF) =
      some 2 := by decide

/-- The state of the sprite witnesses: glyph 0 at `I`, column 63 and row 31, with its first pixel on or off. -/
def sprite (on : Bool) : State :=
  { withRegs [(1, 0xFF), (2, 0xFF)] with fb := if on then State.reset.fb.flip 31 63 else State.reset.fb }

/-- `DrawXorsTheSpriteWithWraparound`: a covered pixel, on (a hit) and off; an uncovered one. -/
theorem witness_sprite : (sprite true).spriteCovers 255 255 1 31 63 ∧ (sprite true).pixel 31 63 = true ∧
    (sprite false).pixel 31 63 = false ∧ (sprite false).spriteCovers 255 255 1 31 0 ∧
    ¬(sprite true).spriteCovers 255 255 0 31 63 :=
  ⟨⟨0, 0, by decide, by decide, by unfold State.spritePixel; decide, by decide, by decide⟩, by decide, by decide,
    ⟨0, 1, by decide, by decide, by unfold State.spritePixel; decide, by decide, by decide⟩, by rintro ⟨r, c, h, -⟩; omega⟩

/-- `DrawingTwiceRestoresTheBuffer`: the second draw is placed by the flag of the first. -/
theorem witness_draw_twice : ∃ t, exec (.drw 0 0 1) (sprite false) = .next t ∧
    (t.reg VF).toNat % 64 = ((sprite false).reg 0).toNat % 64 ∧
    (t.reg VF).toNat % 32 = ((sprite false).reg 0).toNat % 32 :=
  ⟨_, rfl, by decide, by decide⟩

/-- The sprite's place with every pixel on. -/
def lit : State := { sprite true with fb := Vector.replicate 32 (Vector.replicate 64 true) }

/-- `DrawingTwiceRestoresTheBuffer` on a lit place (log 25): the sprite has a set bit, every pixel it covers was on, so
by R202 the first draw collides and the second, at the same place, does not. -/
theorem witness_draw_twice_lit : lit.spriteCovers 255 255 1 31 63 ∧ ∃ t, exec (.drw 1 2 1) lit = .next t ∧
    (t.reg 1).toNat % 64 = (lit.reg 1).toNat % 64 ∧ (t.reg 2).toNat % 32 = (lit.reg 2).toNat % 32 ∧
    lit.pixel 31 63 = true ∧ t.pixel 31 63 = false ∧ t.reg VF = 1 ∧
    answer (exec (.drw 1 2 1) t) (fun u => (u.pixel 31 63, u.reg VF)) = some (true, 0) :=
  ⟨⟨0, 0, by decide, by decide, by unfold State.spritePixel; decide, by decide, by decide⟩, _, rfl, by decide,
    by decide, by decide, by decide, by decide, by decide⟩

/-- The timer statements: a cycle of each instruction. -/
theorem witness_timers : (boot 0xFF07).halted = false ∧
    decode .supported (boot 0xFF07).fetchWord = .instr (.ldVxDt 15) ∧
    decode .supported (boot 0xFF15).fetchWord = .instr (.ldDtVx 15) ∧
    decode .supported (boot 0xFF18).fetchWord = .instr (.ldStVx 15) := by decide

/-- `WaitForKey`: only the last key pressed; the first of several; none. -/
theorem witness_keys :
    (({ State.reset with key := State.reset.key.set 15 true } : State).key[15] = true ∧
      ∀ j : RegId, j < 15 → ({ State.reset with key := State.reset.key.set 15 true } : State).key[j] = false) ∧
    (({ State.reset with key := Vector.replicate 16 true } : State).key[0] = true ∧ ∀ j : RegId, ¬j < 0) ∧
    ∀ k : RegId, State.reset.key[k] = false := by decide

/-- `WaitingEngineStaysAtItsWait`: an engine that waits, its next cycle, and the key that ends the wait. -/
theorem witness_waiting : waiting.keywait = true ∧ waiting.WaitInv ∧ (∃ t, hostAct .step waiting = .next t) ∧
    ∃ t, hostAct (.keyIn 15 true) waiting = .next t :=
  ⟨rfl, fun _ => ⟨4, by decide⟩, ⟨_, rfl⟩, _, rfl⟩

/-- The invariant statements: a state other than reset that meets the invariant, its next cycle and host actions. -/
theorem witness_invariant : (boot 0x2300).Inv ∧ (∃ t, step (boot 0x2300) = .next t) ∧
    (∃ t, hostAct (.init [0x12]) (boot 0x2300) = .next t) ∧ ∃ t, hostAct .toneAck (boot 0x2300) = .next t :=
  ⟨⟨by decide, ⟨[], [], rfl, by simp, by simp⟩, by decide⟩, ⟨_, rfl⟩, ⟨_, rfl⟩, _, rfl⟩

/-- `KeysBelongToTheHost`: the last key, an instruction of each kind, a cycle, `initialize`. -/
theorem witness_key_owner : 15 < 16 ∧ (Instr.cls).readsKeys = false ∧ (Instr.ldVxK 0).readsKeys = true ∧
    (∃ t, exec .cls State.reset = .next t) ∧ (∃ t, step State.reset = .next t) ∧
    ∃ t, portInit [] State.reset = .next t :=
  ⟨by decide, rfl, rfl, ⟨_, rfl⟩, ⟨_, rfl⟩, _, rfl⟩

/-- `OnlyFourInstructionsReachMemory`: an instruction of each clause. -/
theorem witness_memory_users : (Instr.ldI 0xFFF).reachesMemory = false ∧ (∃ t, exec (.ldI 0xFFF) State.reset = .next t) ∧
    (∃ t, exec (.drw 0 0 15) State.reset = .next t) ∧ ∃ t, exec (.ldVxMi 15) State.reset = .next t :=
  ⟨rfl, ⟨_, rfl⟩, ⟨_, rfl⟩, _, rfl⟩

/-- `OnlyItsWritersChangeAPart`, `FlagAndDestinationDiscipline`: the writers do change their parts. -/
theorem witness_writers : answer (exec (.ldI 1) State.reset) (fun t => t.i) = some 1 ∧
    answer (exec (.call 1) State.reset) (fun t => t.sp) = some 1 ∧
    answer (exec .ret State.reset) (fun t => t.halted) = some true ∧
    answer (exec (.ldDtVx 0) (withRegs [(0, 1)])) (fun t => t.dt) = some 1 ∧
    answer (exec (.ldVxK 0) State.reset) (fun t => t.keywait) = some true ∧
    answer (exec (.ldImm 0 1) State.reset) (fun t => t.reg 0) = some 1 := by decide

/-- `AcknowledgePortsAnswerAndClear`: host actions on a running and on a halted engine. -/
theorem witness_ports : (∃ t, hostAct .redrawAck stopped = .next t) ∧ (∃ t, hostAct .step stopped = .next t) ∧
    ∃ t, hostAct (.init []) (boot 0x1200) = .next t :=
  ⟨⟨_, rfl⟩, ⟨_, rfl⟩, _, rfl⟩

end Sys2Proof.Tests
end

section
/-! PROOFS. What `initialize` leaves (spec/10_state.md R41, spec/70_reset_and_hazards.md R270), said once, and that
every piece of state has the value of R41's table. -/

namespace Sys2Proof.Machine

/-- The state `initialize(P)` leaves (R270); `portInit_of_fits` and `portInit_next` tie it to the port. -/
def State.initialized (s : State) (P : List Byte) : State :=
  { State.cleared s.cfg s.draws with mem := Memory.load s.cfg.font [] programBase P }

theorem portInit_of_fits {s : State} {P : List Byte} (h : P.length ≤ 3584) :
    portInit P s = .next (s.initialized P) := if_pos h

/-- The port answers a next state only for an image that fits, and then that of R270. -/
theorem portInit_next {s t : State} {P : List Byte} (h : portInit P s = .next t) :
    P.length ≤ 3584 ∧ t = s.initialized P := by
  by_cases hP : P.length ≤ 3584
  · rw [portInit_of_fits hP] at h
    exact ⟨hP, (Host.Outcome.next.inj h).symm⟩
  · cases (if_neg hP).symm.trans h

@[simp] theorem State.initialized_reg (s : State) (P : List Byte) (r : RegId) : (s.initialized P).reg r = 0 := by
  simp [State.initialized, State.cleared, State.reg]

@[simp] theorem State.initialized_stack (s : State) (P : List Byte) (j : Fin 16) : (s.initialized P).stack[j] = 0 := by
  simp [State.initialized, State.cleared]

@[simp] theorem State.initialized_pixel (s : State) (P : List Byte) (r : Fin 32) (c : Fin 64) :
    (s.initialized P).pixel r c = false := by
  simp [State.initialized, State.cleared, State.pixel, Fb.get]

@[simp] theorem State.initialized_key (s : State) (P : List Byte) (k : RegId) : (s.initialized P).key[k] = false := by
  simp [State.initialized, State.cleared]

/-! ### The memory after `initialize`: font, zeros, image, zeros -/

theorem State.initialized_byteAt (s : State) (P : List Byte) (a : Nat) :
    (s.initialized P).byteAt a = Memory.read s.cfg.font (Memory.load s.cfg.font [] 0x200 P) a := rfl

theorem State.initialized_byteAt_image (s : State) (P : List Byte) (j : Nat) (h : j < P.length) :
    (s.initialized P).byteAt (0x200 + j) = P[j] := by
  rw [State.initialized_byteAt, Memory.read_load, dif_pos (by omega)]
  simp

theorem State.initialized_byteAt_outside (s : State) (P : List Byte) {a : Nat}
    (h : a < 0x200 ∨ 0x200 + P.length ≤ a) : (s.initialized P).byteAt a = background s.cfg.font a := by
  rw [State.initialized_byteAt, Memory.read_load, dif_neg (by omega), Memory.read_nil]

theorem background_font (font : Vector Byte 80) {a : Nat} (h : a < 80) : background font a = font[a] := dif_pos h

theorem background_zero (font : Vector Byte 80) {a : Nat} (h : 80 ≤ a) : background font a = 0 := dif_neg (by omega)

/-- Settles O1: the image overlays the background, which is the font and then zeros. -/
theorem initGivesEveryPieceItsValue : Obligations.InitGivesEveryPieceItsValue := by
  unfold Obligations.InitGivesEveryPieceItsValue
  intro s P hP
  have font : ∀ a (h : a < 80), (s.initialized P).byteAt a = s.cfg.font[a] := fun a h =>
    (s.initialized_byteAt_outside P (by omega)).trans (background_font _ h)
  have zeros : ∀ a, 80 ≤ a → (a < 0x200 ∨ 0x200 + P.length ≤ a) → (s.initialized P).byteAt a = 0 := fun a h80 h =>
    (s.initialized_byteAt_outside P h).trans (background_zero _ h80)
  exact ⟨s.initialized P, portInit_of_fits hP, font, fun a h80 h => zeros a h80 (.inl h),
    s.initialized_byteAt_image P, fun a h _ => zeros a (by omega) (.inr h), s.initialized_reg P, rfl, rfl, rfl,
    s.initialized_stack P, rfl, rfl, s.initialized_pixel P, s.initialized_key P, rfl, rfl, rfl, rfl, rfl, rfl⟩

end Sys2Proof.Machine
end

section
/-! PROOFS. The key state (spec/10_state.md R31): an instruction that does not read it does the same whatever it is, no
cycle writes it, and the three readers depend on it. -/

namespace Sys2Proof.Machine

/-! ### What does not read the keys -/

/-- An effect that carries the keys along ends, under any advance, in a state that does. -/
theorem done_withKey {f : Flow} {u u' t : State} {κ : Vector Bool 16} (h : done f u = .next t)
    (hu : u' = { u with key := κ }) : done f u' = .next { t with key := κ } := by
  obtain rfl : u.advance f = t := Host.Outcome.next.inj h
  rw [hu, done, State.advance_withKey]

theorem State.stackFail_withKey (s : State) (d : Diag) (κ : Vector Bool 16) :
    State.stackFail { s with key := κ } d = { s.stackFail d with key := κ } :=
  State.advance_withKey (s.raise d) _ κ

theorem execRet_withKey {s t : State} (κ : Vector Bool 16) (h : execRet s = .next t) :
    execRet { s with key := κ } = .next { t with key := κ } := by
  by_cases hs : 0 < s.sp.val
  · rw [execRet_of_entry s hs] at h
    rw [execRet_of_entry { s with key := κ } hs]
    exact done_withKey h rfl
  · have hs : s.sp.val = 0 := by omega
    rw [execRet_of_empty s hs] at h
    rw [execRet_of_empty { s with key := κ } hs, State.stackFail_withKey, Host.Outcome.next.inj h]

theorem execCall_withKey {nnn : BitVec 12} {s t : State} (κ : Vector Bool 16) (h : execCall nnn s = .next t) :
    execCall nnn { s with key := κ } = .next { t with key := κ } := by
  by_cases hs : s.sp.val < 16
  · rw [execCall_of_room nnn s hs] at h
    rw [execCall_of_room nnn { s with key := κ } hs]
    exact done_withKey h rfl
  · have hs : s.sp.val = 16 := by omega
    rw [execCall_of_full nnn s hs] at h
    rw [execCall_of_full nnn { s with key := κ } hs, State.stackFail_withKey, Host.Outcome.next.inj h]

theorem execDrw_withKey {x y : RegId} {n : Fin 16} {s t : State} (κ : Vector Bool 16)
    (h : execDrw x y n s = .next t) : execDrw x y n { s with key := κ } = .next { t with key := κ } := by
  refine done_withKey h ?_
  rw [State.drawRows_withKey]
  rfl

theorem execLdBVx_withKey {x : RegId} {s t : State} (κ : Vector Bool 16) (h : execLdBVx x s = .next t) :
    execLdBVx x { s with key := κ } = .next { t with key := κ } := by
  refine done_withKey h ?_
  simp only [State.memWrite_withKey]
  rfl

/-- Every instruction but `Ex9E`, `ExA1` and `Fx0A` does the same whatever the keys are, and carries them along. -/
theorem exec_withKey {i : Instr} {s t : State} (κ : Vector Bool 16) (hi : i.readsKeys = false)
    (h : exec i s = .next t) : exec i { s with key := κ } = .next { t with key := κ } := by
  cases i
  case skp | sknp | ldVxK => cases hi
  case ret => exact execRet_withKey κ h
  case call => exact execCall_withKey κ h
  case drw => exact execDrw_withKey κ h
  case ldBVx => exact execLdBVx_withKey κ h
  case ldMiVx => exact done_withKey h (s.storeRegs_withKey κ _)
  case ldVxMi => exact done_withKey h (s.loadRegs_withKey κ _)
  all_goals exact done_withKey h rfl

/-! ### Nothing in a cycle writes the keys -/

/-- No instruction writes the keys. One that does not read them carries along those it was given; the readers advance
from an effect on other parts. -/
theorem exec_key {i : Instr} {s t : State} (h : exec i s = .next t) : t.key = s.key := by
  cases hi : i.readsKeys
  · have same : t = { t with key := s.key } := Host.Outcome.next.inj (h.symm.trans (exec_withKey s.key hi h))
    rw [same]
  · cases i
    case skp | sknp => exact Host.Outcome.next.inj h ▸ s.advance_key _
    case ldVxK x =>
      cases hk : s.leastPressed with
      | some k => exact Host.Outcome.next.inj ((execLdVxK_of_pressed x s hk).symm.trans h) ▸ rfl
      | none => exact Host.Outcome.next.inj ((execLdVxK_of_none x s hk).symm.trans h) ▸ rfl
    all_goals cases hi

theorem step_key {s t : State} (h : step s = .next t) : t.key = s.key := by
  rcases step_next_cases h with ⟨-, rfl⟩ | ⟨-, i, u, -, hu, rfl⟩ | ⟨-, w, -, rfl⟩
  · rfl
  · rw [State.endCycle_key, exec_key hu, State.fetch_key, State.clearDiag_key]
  · rw [State.endCycle_key, State.unrecognized, State.advance_key, State.raise_key, State.fetch_key,
      State.clearDiag_key]

/-! ### `KEY_IN` -/

theorem portKeyIn_of_lt {s : State} {k : Nat} (p : Bool) (h : k < 16) :
    portKeyIn k p s = .next { s with key := s.key.set k p h } := dif_pos h

theorem getElem_key_set (κ : Vector Bool 16) {k : Nat} (p : Bool) (h : k < 16) (j : RegId) :
    (κ.set k p h)[j] = if j.val = k then p else κ[j] := by
  simp [Vector.getElem_set, eq_comm]

theorem changesOnly_keys (s : State) (κ : Vector Bool 16) : ChangesOnly [.keys] s { s with key := κ } := by
  intro p hp
  cases p
  case keys => simp at hp
  case callStack => exact ⟨rfl, rfl⟩
  case regs | memory => exact fun _ => rfl
  all_goals rfl

/-! ### The three readers depend on the keys -/

/-- Every key pressed. -/
def allPressed : Vector Bool 16 := Vector.replicate 16 true

theorem State.pressed_reset (k : RegId) : State.reset.pressed k = false := by
  simp [State.pressed, State.reset, State.cleared]

theorem State.pressed_allPressed (s : State) (k : RegId) : State.pressed { s with key := allPressed } k = true := by
  simp [State.pressed, allPressed]

/-- From the reset state, where no key is pressed, a reader leaves another `pc` than with every key pressed. -/
theorem exec_reader_pc {i : Instr} (hi : i.readsKeys = true) : ∃ t t' : State, exec i State.reset = .next t ∧
    exec i { State.reset with key := allPressed } = .next t' ∧ t'.pc ≠ t.pc := by
  cases i
  case skp | sknp =>
    refine ⟨_, _, rfl, rfl, ?_⟩
    rw [State.pressed_reset, State.pressed_allPressed]
    decide
  case ldVxK x =>
    have moves : trunc16 (State.reset.pc.toNat + 2) ≠ State.reset.pc := by decide
    exact ⟨_, _, execLdVxK_of_none x State.reset (by decide),
      execLdVxK_of_pressed x { State.reset with key := allPressed } (k := 0) (by decide), moves⟩
  all_goals cases hi

/-- Settles O56, clause by clause. -/
theorem keysBelongToTheHost : Obligations.KeysBelongToTheHost := by
  unfold Obligations.KeysBelongToTheHost
  refine ⟨fun s t => step_key, fun s k p hk => ?_, fun P s t h => ?_, fun i s t κ => exec_withKey κ, fun i hi => ?_⟩
  · exact ⟨_, portKeyIn_of_lt p hk, getElem_key_set s.key p hk, changesOnly_keys s _⟩
  · obtain ⟨-, rfl⟩ := portInit_next h
    exact s.initialized_key P
  · obtain ⟨t, t', h, h', hpc⟩ := exec_reader_pc hi
    exact ⟨State.reset, t, t', allPressed, h, h', hpc⟩

end Sys2Proof.Machine
end

section
/-! PROOFS. Memory accesses (spec/20_memory.md R53): each goes through `Bound`, and what it leaves unchanged. -/

namespace Sys2Proof.Machine

theorem changesOnly_memory_diag (s : State) (m : Memory) (ds : List Diag) :
    ChangesOnly [.memory, .diag] s { s with mem := m, diag := ds } := by
  intro p hp
  cases p
  case memory | diag => simp at hp
  case callStack => exact ⟨rfl, rfl⟩
  case regs => exact fun _ => rfl
  all_goals rfl

theorem changesOnly_diag (s : State) (ds : List Diag) : ChangesOnly [.diag] s { s with diag := ds } := by
  intro p hp
  by_cases hm : p = .memory
  · subst hm
    exact fun _ => rfl
  · exact changesOnly_memory_diag s s.mem ds p (List.not_mem_cons_of_ne_of_not_mem hm hp)

/-- The diagnostic of R52, if any, is appended and nothing else changes. -/
theorem State.noteAddr_eq (s : State) (a : Nat) : s.noteAddr a = { s with diag := s.diag ++ addrDiags [a] } := by
  rw [← State.noteAddr_diag]
  unfold State.noteAddr
  split <;> rfl

theorem State.memRead_changesOnly (s : State) (a : Nat) : ChangesOnly [.diag] s (s.memRead a).2 := by
  rw [State.memRead, State.noteAddr_eq]
  exact changesOnly_diag s _

theorem State.memWrite_changesOnly (s : State) (a : Nat) (v : Byte) :
    ChangesOnly [.memory, .diag] s (s.memWrite a v) := by
  rw [State.memWrite, State.noteAddr_eq]
  exact changesOnly_memory_diag s _ _

theorem State.byteAt_memWrite_bound (s : State) (a : Nat) (v : Byte) : (s.memWrite a v).byteAt (s.bound a) = v :=
  (s.byteAt_memWrite a _ v).trans (if_pos rfl)

theorem State.memWrite_otherBytes (s : State) (a : Nat) (v : Byte) : OtherBytes [s.bound a] s (s.memWrite a v) :=
  fun b hb => (s.byteAt_memWrite a b v).trans (if_neg (List.mem_singleton.not.1 hb))

/-- Settles O10: the read and the diagnostics are the definitions' own, the rest is `State.byteAt_memWrite` and the
frames above. -/
theorem accessesGoThroughBound : Obligations.AccessesGoThroughBound := by
  unfold Obligations.AccessesGoThroughBound
  intro s a v
  exact ⟨rfl, rfl, s.memRead_changesOnly a, s.byteAt_memWrite_bound a v, s.memWrite_otherBytes a v, rfl,
    s.memWrite_changesOnly a v⟩

end Sys2Proof.Machine
end

section
/-! PROOFS. Which bits of an opcode decide what it decodes to (spec/30_encoding.md R70, R75): the bits of the top nibble
and of the sub-key choose the instruction, the fields fill it in, and in the categories E and F nothing is left over. -/

namespace Sys2Proof

/-! ### Slices and fields -/

theorem fieldN_val (w : Word) : (fieldN w).val = slice w 3 0 := Nat.mod_eq_of_lt (slice_lt w 3 0)

theorem fieldKk_toNat (w : Word) : (fieldKk w).toNat = slice w 7 0 :=
  (BitVec.toNat_ofNat _ 8).trans (Nat.mod_eq_of_lt (slice_lt w 7 0))

theorem slice_15 (w : Word) {lo : Nat} (h : lo ≤ 15) : slice w 15 lo = w.toNat / 2 ^ lo := by
  have room : 2 ^ lo * 2 ^ (15 - lo + 1) = 2 ^ 16 := by rw [← pow_add]; congr 1; omega
  exact Nat.mod_eq_of_lt (Nat.div_lt_of_lt_mul (room ▸ w.isLt))

/-- Words that agree from bit `lo` up agree in every slice that lies there. -/
theorem slice_eq_of_upper_eq {w w' : Word} {lo : Nat} (h : slice w' 15 lo = slice w 15 lo) (hlo : lo ≤ 15) (hi : Nat)
    {l : Nat} (hl : lo ≤ l) : slice w' hi l = slice w hi l := by
  rw [slice_15 w' hlo, slice_15 w hlo] at h
  have shift : ∀ n, n / 2 ^ l = n / 2 ^ lo / 2 ^ (l - lo) := fun n => by
    rw [Nat.div_div_eq_div_mul, ← pow_add, Nat.add_sub_cancel' hl]
  rw [slice, slice, shift, shift, h]

theorem fieldX_congr {w w' : Word} (h : slice w' 11 8 = slice w 11 8) : fieldX w' = fieldX w := congrArg (Fin.ofNat 16) h

theorem fieldY_congr {w w' : Word} (h : slice w' 7 4 = slice w 7 4) : fieldY w' = fieldY w := congrArg (Fin.ofNat 16) h

/-- The `x` form holds every bit: category, `x` and sub-key make the word up again. -/
theorem wordXkk_fields {w : Word} {t k : Nat} (ht : fieldTop w = t) (hk : slice w 7 0 = k) :
    wordXkk t (fieldX w) (trunc8 k) = w := by
  subst ht hk
  have := w.isLt
  apply BitVec.eq_of_toNat_eq
  simp [wordXkk, fieldTop, fieldX, slice]; omega

/-! ### What a decoded word says of its instruction -/

theorem decode0_congr {w w' : Word} {i : Instr} (hk : slice w' 7 0 = slice w 7 0) (hd : decode0 w = .instr i) :
    decode0 w' = .instr i := by
  unfold decode0 at hd ⊢
  rw [hk]
  split_ifs at hd ⊢ <;> exact hd

theorem decode8_shr {w : Word} (hn : slice w 3 0 = 0x6) : decode8 w = .instr (.shr (fieldX w)) := by simp [decode8, hn]

theorem decode8_shl {w : Word} (hn : slice w 3 0 = 0xE) : decode8 w = .instr (.shl (fieldX w)) := by simp [decode8, hn]

theorem encode_of_decodeE {w : Word} {i : Instr} (ht : fieldTop w = 0xE) (hd : decodeE w = .instr i) :
    encode i = w := by
  unfold decodeE at hd
  split_ifs at hd with h9E hA1 <;> cases hd
  exacts [wordXkk_fields ht h9E, wordXkk_fields ht hA1]

theorem encode_of_decodeF {b : BulkTransfer} {w : Word} {i : Instr} (ht : fieldTop w = 0xF)
    (hd : decodeF b w = .instr i) : encode i = w := by
  unfold decodeF at hd
  split_ifs at hd with h07 h0A h15 h18 h1E h29 h33 h55 h65 <;> cases hd
  exacts [wordXkk_fields ht h07, wordXkk_fields ht h0A, wordXkk_fields ht h15, wordXkk_fields ht h18,
    wordXkk_fields ht h1E, wordXkk_fields ht h29, wordXkk_fields ht h33, wordXkk_fields ht h55.1,
    wordXkk_fields ht h65.1]

/-- In the categories E and F every bit belongs to the category, `x` or the sub-key: the word is its instruction's. -/
theorem encode_of_decode {b : BulkTransfer} {w : Word} {i : Instr} (ht : fieldTop w = 0xE ∨ fieldTop w = 0xF)
    (hd : decode b w = .instr i) : encode i = w := by
  rcases ht with ht | ht
  · exact encode_of_decodeE ht ((decode_category_E ht).symm.trans hd)
  · exact encode_of_decodeF ht ((decode_category_F ht).symm.trans hd)

theorem fieldTop_encode_of_decode0 {w : Word} {i : Instr} (hd : decode0 w = .instr i) : fieldTop (encode i) = 0x0 := by
  unfold decode0 at hd
  split_ifs at hd <;> cases hd <;> exact fieldTop_wordXkk (by decide) _ _

theorem fieldTop_encode_of_decode8 {w : Word} {i : Instr} (hd : decode8 w = .instr i) : fieldTop (encode i) = 0x8 := by
  unfold decode8 at hd
  split_ifs at hd <;> cases hd <;> exact fieldTop_wordXyn (by decide) _ _ _

/-- A word decodes only to instructions of its own category, so two words of one instruction share it. -/
theorem fieldTop_encode_of_decode {b : BulkTransfer} {w : Word} {i : Instr} (hd : decode b w = .instr i) :
    fieldTop (encode i) = fieldTop w := by
  unfold decode at hd
  split at hd
  case h_1 h => exact (fieldTop_encode_of_decode0 hd).trans h.symm
  case h_9 h => exact (fieldTop_encode_of_decode8 hd).trans h.symm
  case h_15 h => exact congrArg fieldTop (encode_of_decodeE h hd)
  case h_16 h => exact congrArg fieldTop (encode_of_decodeF h hd)
  all_goals cases hd
  case h_2 h | h_3 h | h_11 h | h_12 h => exact (fieldTop_wordNnn (by decide) _).trans h.symm
  case h_4 h | h_5 h | h_7 h | h_8 h | h_13 h => exact (fieldTop_wordXkk (by decide) _ _).trans h.symm
  case h_6 h | h_10 h | h_14 h => exact (fieldTop_wordXyn (by decide) _ _ _).trans h.symm

/-! ### The bits a pattern does not use (R75) -/

theorem decode_ignores_x {b : BulkTransfer} {w w' : Word} {i : Instr} (hd : decode b w = .instr i)
    (ht : fieldTop w = 0x0) (ht' : fieldTop w' = 0x0) (hk : fieldKk w' = fieldKk w) : decode b w' = .instr i := by
  have hk : slice w' 7 0 = slice w 7 0 := by rw [← fieldKk_toNat, ← fieldKk_toNat, hk]
  rw [decode_category_0 ht] at hd
  rw [decode_category_0 ht']
  exact decode0_congr hk hd

theorem decode_ignores_n {b : BulkTransfer} {w w' : Word} (ht : fieldTop w = 0x5 ∨ fieldTop w = 0x9)
    (h : slice w' 15 4 = slice w 15 4) : decode b w' = decode b w := by
  have top : fieldTop w' = fieldTop w := slice_eq_of_upper_eq h (by decide) 15 (by decide)
  have hx : fieldX w' = fieldX w := fieldX_congr (slice_eq_of_upper_eq h (by decide) 11 (by decide))
  have hy : fieldY w' = fieldY w := fieldY_congr (slice_eq_of_upper_eq h (by decide) 7 (by decide))
  rcases ht with ht | ht
  · rw [decode_category_5 ht, decode_category_5 (top.trans ht), hx, hy]
  · rw [decode_category_9 ht, decode_category_9 (top.trans ht), hx, hy]

theorem decode_ignores_y {b : BulkTransfer} {w w' : Word} (ht : fieldTop w = 0x8) (hn : fieldN w = 0x6 ∨ fieldN w = 0xE)
    (h : slice w' 15 8 = slice w 15 8) (hn' : fieldN w' = fieldN w) : decode b w' = decode b w := by
  have top : fieldTop w' = fieldTop w := slice_eq_of_upper_eq h (by decide) 15 (by decide)
  have hx : fieldX w' = fieldX w := fieldX_congr (slice_eq_of_upper_eq h (by decide) 11 (by decide))
  have subkey : slice w' 3 0 = slice w 3 0 := by rw [← fieldN_val, ← fieldN_val, hn']
  rw [decode_category_8 ht, decode_category_8 (top.trans ht)]
  rcases hn with hn | hn
  · have hn : slice w 3 0 = 0x6 := by rw [← fieldN_val, hn]; rfl
    rw [decode8_shr hn, decode8_shr (subkey.trans hn), hx]
  · have hn : slice w 3 0 = 0xE := by rw [← fieldN_val, hn]; rfl
    rw [decode8_shl hn, decode8_shl (subkey.trans hn), hx]

/-- Settles O8. The first three clauses hold because `decode` tests and reads only the bits on which the words agree,
the last because both words are the encoder's word of the one instruction. -/
theorem unusedBitsAreIgnored : Obligations.UnusedBitsAreIgnored := by
  unfold Obligations.UnusedBitsAreIgnored
  intro b w w' i hd
  refine ⟨decode_ignores_x hd, fun ht h => (decode_ignores_n ht h).trans hd,
    fun ht hn h hn' => (decode_ignores_y ht hn h hn').trans hd, fun ht hd' => ?_⟩
  have top : fieldTop w' = fieldTop w := (fieldTop_encode_of_decode hd').symm.trans (fieldTop_encode_of_decode hd)
  exact (encode_of_decode (top ▸ ht) hd').symm.trans (encode_of_decode ht hd)

/-- Settles O7: encoder and byte decoder are lists of two by definition, and the fetched word is `State.fetchWord`. -/
theorem decodingConsumesTwoBytes : Obligations.DecodingConsumesTwoBytes := by
  unfold Obligations.DecodingConsumesTwoBytes
  refine ⟨fun _ => rfl, fun b hi lo _ => ⟨decode b (concat hi lo), rfl⟩, fun s => ?_⟩
  rw [s.fetch_opc, Machine.State.fetchWord, concat_toNat, Nat.mul_comm]

end Sys2Proof
end

section
/-! PROOFS. The two parts of a cycle that run around the instruction (spec/40_engine.md R103, R108): the fetch and the
timer tick, each with what it leaves unchanged. -/

namespace Sys2Proof.Machine

/-! ### The fetch (R103) -/

theorem State.fetch_changesOnly (s : State) : ChangesOnly [.latch, .diag] s s.fetch := by
  intro p hp
  cases p
  case latch | diag => simp at hp
  case regs => exact s.fetch_reg
  case memory => exact s.fetch_byteAt
  case callStack => exact ⟨s.fetch_sp, s.fetch_stack⟩
  all_goals simp [Part.same]

/-- Settles O12: the latched word, the records in order, and the frame. -/
theorem fetchLatchesTheOpcode : Obligations.FetchLatchesTheOpcode := by
  unfold Obligations.FetchLatchesTheOpcode
  exact fun s => ⟨s.fetch_opc, s.fetch_diag, s.fetch_changesOnly⟩

/-! ### The timer tick (R108) -/

theorem State.tick_changesOnly (s : State) : ChangesOnly [.delay, .sound, .tone] s s.tick := by
  intro p hp
  cases p
  case delay | sound | tone => simp at hp
  case regs => exact s.tick_reg
  case memory => exact s.tick_byteAt
  case callStack => exact ⟨s.tick_sp, s.tick_stack⟩
  all_goals rfl

/-- A sound timer that the tick brings down to 1 stood at 2: one that stood at 1 goes to 0, and 0 stays. -/
theorem State.tick_st_reaches_one_iff (s : State) : 0 < s.st.toNat ∧ s.tick.st.toNat = 1 ↔ s.st.toNat = 2 := by
  rw [s.tick_st_toNat]
  omega

theorem State.tick_tone_set {s : State} (h : s.st.toNat = 2) : s.tick.tone = true := by simp [s.tick_tone, h]

theorem State.tick_tone_kept {s : State} (h : s.st.toNat ≠ 2) : s.tick.tone = s.tone := by simp [s.tick_tone, h]

/-- Settles O17: a timer's floor at 0 is the truncated subtraction of `State.tick_dt_toNat` and `State.tick_st_toNat`,
and the tone turns on whether the sound timer stood at 2. -/
theorem tickCountsDownAndSignalsTone : Obligations.TickCountsDownAndSignalsTone := by
  unfold Obligations.TickCountsDownAndSignalsTone
  intro s
  refine ⟨fun _ => s.tick_dt_toNat, fun hzero => ?_, fun _ => s.tick_st_toNat, fun hzero => ?_,
    fun hpos hone => State.tick_tone_set (s.tick_st_reaches_one_iff.1 ⟨hpos, hone⟩),
    fun hnot => State.tick_tone_kept (s.tick_st_reaches_one_iff.not.1 hnot), s.tick_changesOnly⟩
  · rw [s.tick_dt_toNat, hzero]
  · rw [s.tick_st_toNat, hzero]

end Sys2Proof.Machine
end

section
/-! PROOFS. Control flow (spec/41_control_flow.md R131, R133, R134): an advance that is not fatal moves `pc` and nothing
else, a jump puts it on `nnn`, and a skip moves it by 4 or by 2. -/

namespace Sys2Proof.Machine

/-! ### Rows that are a top nibble (R74) -/

theorem rowDecodes_of_top {b : BulkTransfer} {i : Word → Instr} {n : Nat} (hn : n < 16)
    (h : ∀ w, fieldTop w = n → decode b w = .instr (i w)) : RowDecodes b (BitVec.ofNat 16 (n * 0x1000)) 0xF000 i :=
  fun w hw => h w ((row_F000 w hn).1 hw)

/-! ### The advance (R106) -/

theorem State.advance_changesOnly (s : State) {f : Flow} (hf : f ≠ .fatal) : ChangesOnly [.pc] s (s.advance f) := by
  intro p hp
  cases p
  case pc => simp at hp
  case halted => simp [Part.same, s.advance_halted, hf]
  case regs => exact s.advance_reg f
  case memory => exact s.advance_byteAt f
  case callStack => exact ⟨s.advance_sp f, s.advance_stack f⟩
  all_goals simp [Part.same]

/-- An address of 12 bits does not wrap. -/
theorem State.advance_set_nnn_pc_toNat (s : State) (nnn : BitVec 12) :
    (s.advance (.set nnn.toNat)).pc.toNat = nnn.toNat := by
  rw [s.advance_set_pc_toNat]
  exact Nat.mod_eq_of_lt (nnn.isLt.trans (by decide))

theorem skipIf_ne_fatal (c : Bool) : skipIf c ≠ .fatal := by cases c <;> simp [skipIf]

theorem advanced_skipIf (s : State) (p : Prop) [Decidable p] :
    Advanced (if p then 4 else 2) s (s.advance (skipIf p)) := by
  simp [Advanced, s.advance_skipIf_pc_toNat]

theorem advanced_skipIf_not (s : State) (p : Prop) [Decidable p] :
    Advanced (if p then 2 else 4) s (s.advance (skipIf (¬p))) := by
  simp [Advanced, s.advance_skipIf_pc_toNat]

/-- Where `pc` does not leave 16 bits, the wrap of `Advanced` is none. -/
theorem Advanced.stepsBy {k : Nat} {s t : State} (h : Advanced k s t) : StepsBy k s t :=
  fun hk => h.trans (Nat.mod_eq_of_lt (Nat.lt_succ_of_le hk))

/-! ### The cycle around an instruction that does not halt (R100) -/

theorem step_of_exec_running {s u : State} {i : Instr} (hs : s.halted = false)
    (hd : decode s.cfg.bulk s.fetchWord = .instr i) (hx : exec i s.clearDiag.fetch = .next u) (hu : u.halted = false) :
    step s = .next u.tick := by
  rw [step_decoded hs hd, hx, endOutcome_next, State.endCycle_of_running hu]

/-- A running engine that decodes `1nnn` jumps and ticks. -/
theorem step_jp {s : State} {nnn : BitVec 12} (hs : s.halted = false)
    (hd : decode s.cfg.bulk s.fetchWord = .instr (.jp nnn)) :
    step s = .next (s.clearDiag.fetch.advance (.set nnn.toNat)).tick :=
  step_of_exec_running hs hd rfl (by simp [hs])

/-- Settles O19: the row is the category 1, the effect is one advance, and the cycle of a jump to itself sets `pc` to
what it was and ticks. -/
theorem jumpSetsPc : Obligations.JumpSetsPc := by
  unfold Obligations.JumpSetsPc
  refine ⟨fun b => rowDecodes_of_top (n := 1) (by decide) fun w => decode_category_1, fun s nnn => ?_,
    fun s nnn hs hd hself => ?_⟩
  · exact ⟨_, rfl, s.advance_set_nnn_pc_toNat nnn, s.advance_changesOnly (by simp)⟩
  · refine ⟨_, step_jp hs hd, ?_, ?_, ?_⟩
    · rw [State.tick_pc]
      exact BitVec.eq_of_toNat_eq ((State.advance_set_nnn_pc_toNat _ nnn).trans hself)
    · simp [State.tick_dt_toNat]
    · simp [State.tick_st_toNat]

/-- Settles O25: the rows are the categories 3 and 4, and each instruction is a skip on its condition. -/
theorem skipOnImmediate : Obligations.SkipOnImmediate := by
  unfold Obligations.SkipOnImmediate
  refine ⟨fun b => rowDecodes_of_top (n := 3) (by decide) fun w => decode_category_3,
    fun b => rowDecodes_of_top (n := 4) (by decide) fun w => decode_category_4, fun s x kk => ⟨?_, ?_⟩⟩
  · exact ⟨_, rfl, (advanced_skipIf s (s.reg x = kk)).stepsBy, s.advance_changesOnly (skipIf_ne_fatal _)⟩
  · exact ⟨_, rfl, (advanced_skipIf_not s (s.reg x = kk)).stepsBy, s.advance_changesOnly (skipIf_ne_fatal _)⟩

end Sys2Proof.Machine
end

section
/-! PROOFS. ALU loads and the immediate add (spec/42_alu.md R151 to R153): a register write followed by the advance by 2
writes that register and moves `pc`, and nothing else. -/

namespace Sys2Proof

theorem decode8_ldReg {w : Word} (hn : slice w 3 0 = 0x0) : decode8 w = .instr (.ldReg (fieldX w) (fieldY w)) :=
  if_pos hn

namespace Machine

/-! ### Rows of category 8 (R74) -/

theorem rowDecodes_of_decode8 {b : BulkTransfer} {i : Word → Instr} {n : Nat} (hn : n < 16)
    (h : ∀ w, slice w 3 0 = n → decode8 w = .instr (i w)) :
    RowDecodes b (BitVec.ofNat 16 (8 * 0x1000 + n)) 0xF00F i := by
  intro w hw
  obtain ⟨top, subkey⟩ := (row_F00F w (by decide) hn).1 hw
  rw [decode_category_8 top, h w subkey]

/-! ### Frames of one change after another -/

theorem Part.same_trans {p : Part} {s t u : State} (hst : p.same s t) (htu : p.same t u) : p.same s u := by
  cases p
  case regs | memory => exact fun a => (htu a).trans (hst a)
  case callStack => exact ⟨htu.1.trans hst.1, htu.2.trans hst.2⟩
  all_goals exact Eq.trans htu hst

theorem ChangesOnly.trans {ps qs : List Part} {s t u : State} (hst : ChangesOnly ps s t) (htu : ChangesOnly qs t u) :
    ChangesOnly (ps ++ qs) s u := fun p hp =>
  Part.same_trans (hst p (hp ∘ List.mem_append_left qs)) (htu p (hp ∘ List.mem_append_right ps))

/-! ### A register write, and the advance by 2 after it (R105, R106) -/

theorem State.setReg_changesOnly (s : State) (x : RegId) (b : Byte) : ChangesOnly [.regs] s (s.setReg x b) := by
  intro p hp
  cases p
  case regs => simp at hp
  case callStack => exact ⟨rfl, rfl⟩
  case memory => exact fun _ => rfl
  all_goals rfl

theorem State.setReg_otherRegs (s : State) (x : RegId) (b : Byte) : OtherRegs [x] s (s.setReg x b) :=
  fun _ hr => s.reg_setReg_other b (List.ne_of_not_mem_cons hr)

theorem State.setReg_advance_reg (s : State) (x : RegId) (b : Byte) (f : Flow) :
    ((s.setReg x b).advance f).reg x = b := by simp

theorem State.setReg_advance_writesRegs (s : State) (x : RegId) (b : Byte) :
    WritesRegs [x] s ((s.setReg x b).advance .next) :=
  ⟨fun r hr => (State.advance_reg _ _ r).trans (s.setReg_otherRegs x b r hr),
    State.advance_next_pc_toNat _,
    (s.setReg_changesOnly x b).trans (State.advance_changesOnly _ (by simp))⟩

/-- An instruction that ends in one register write, with the advance said only where it does not wrap. -/
theorem done_setReg (s : State) (x : RegId) (b : Byte) : ∃ t, done .next (s.setReg x b) = .next t ∧ t.reg x = b ∧
    OtherRegs [x] s t ∧ StepsBy 2 s t ∧ ChangesOnly [.regs, .pc] s t := by
  obtain ⟨hregs, hpc, hframe⟩ := s.setReg_advance_writesRegs x b
  exact ⟨_, rfl, s.setReg_advance_reg x b .next, hregs, hpc.stepsBy, hframe⟩

theorem aluAdd_toNat (a b : Byte) : (aluAdd a b).toNat = (a.toNat + b.toNat) % 256 := BitVec.toNat_ofNat _ _

/-! ### The obligations -/

/-- Settles O29: `6xkk` is category 6, `8xy0` is the sub-key 0 of category 8, and each instruction is one register
write. -/
theorem loadRegister : Obligations.LoadRegister := by
  unfold Obligations.LoadRegister
  refine ⟨fun b => rowDecodes_of_top (n := 6) (by decide) fun w => decode_category_6,
    fun b => rowDecodes_of_decode8 (n := 0) (by decide) fun w => decode8_ldReg, fun s x y kk => ⟨?_, ?_⟩⟩
  · exact done_setReg s x kk
  · exact done_setReg s x (s.reg y)

/-- Settles O30: `7xkk` is category 7, and the instruction is one register write, of the narrowed sum. -/
theorem addImmediateWraps : Obligations.AddImmediateWraps := by
  unfold Obligations.AddImmediateWraps
  refine ⟨fun b => rowDecodes_of_top (n := 7) (by decide) fun w => decode_category_7, fun s x kk => ?_⟩
  obtain ⟨t, ht, hx, hframe⟩ := done_setReg s x (aluAdd (s.reg x) kk)
  exact ⟨t, ht, by rw [hx, aluAdd_toNat], hframe⟩

end Machine
end Sys2Proof
end

section
/-! PROOFS. The load of the index register (spec/43_index_memory.md R180): a write of `I` followed by the advance by 2
leaves everything but `I` and `pc` as it was, and an address of 12 bits is at most 0xFFF. -/

namespace Sys2Proof.Machine

/-! ### A write of the index register, and the advance by 2 after it (R105, R106) -/

theorem State.setI_changesOnly (s : State) (w : Word) : ChangesOnly [.index] s (s.setI w) := by
  intro p hp
  cases p
  case index => simp at hp
  case regs => exact s.setI_reg w
  case memory => exact s.setI_byteAt w
  case callStack => exact ⟨s.setI_sp w, s.setI_stack w⟩
  all_goals rfl

/-- An instruction that ends in one write of `I`. -/
theorem done_setI (s : State) (w : Word) : ∃ t, done .next (s.setI w) = .next t ∧ t.i = w ∧
    Advanced 2 s t ∧ ChangesOnly [.index, .pc] s t :=
  ⟨_, rfl, State.advance_i _ _, State.advance_next_pc_toNat _,
    (s.setI_changesOnly w).trans (State.advance_changesOnly _ (by simp))⟩

theorem nnn_le_FFF (nnn : BitVec 12) : nnn.toNat ≤ 0xFFF := Nat.le_of_lt_succ nnn.isLt

/-- An address of 12 bits is extended with zeros, so that none of it is cut. -/
theorem trunc16_nnn_toNat (nnn : BitVec 12) : (trunc16 nnn.toNat).toNat = nnn.toNat :=
  (BitVec.toNat_ofNat _ _).trans (Nat.mod_eq_of_lt (nnn.isLt.trans (by decide)))

/-- Settles O37: the row is category 0xA, and the instruction is one write of `I`, of the extended address. -/
theorem loadIndex : Obligations.LoadIndex := by
  unfold Obligations.LoadIndex
  refine ⟨fun b => rowDecodes_of_top (n := 0xA) (by decide) fun w => decode_category_A, fun s nnn => ?_⟩
  obtain ⟨t, ht, hi, hpc, hframe⟩ := done_setI s (trunc16 nnn.toNat)
  have hnnn : t.i.toNat = nnn.toNat := by rw [hi, trunc16_nnn_toNat]
  exact ⟨t, ht, hnnn, hnnn ▸ nnn_le_FFF nnn, hpc.stepsBy, hframe⟩

end Sys2Proof.Machine
end

section
/-! PROOFS. The read of the delay timer (spec/45_timers_input.md R220): one register write, of `DT` as it is before the
tick that ends the cycle. -/

namespace Sys2Proof

theorem decodeF_ldVxDt {b : BulkTransfer} {w : Word} (hk : slice w 7 0 = 0x07) :
    decodeF b w = .instr (.ldVxDt (fieldX w)) := if_pos hk

namespace Machine

/-! ### Rows of category F (R74) -/

theorem rowDecodes_of_decodeF {b : BulkTransfer} {i : Word → Instr} {k : Nat} (hk : k < 256)
    (h : ∀ w, slice w 7 0 = k → decodeF b w = .instr (i w)) :
    RowDecodes b (BitVec.ofNat 16 (0xF * 0x1000 + k)) 0xF0FF i := by
  intro w hw
  obtain ⟨top, subkey⟩ := (row_F0FF w (by decide) hk).1 hw
  rw [decode_category_F top, h w subkey]

/-! ### The cycle of `Fx07` -/

/-- A running engine that decodes `Fx07` writes the timer of the cycle's start, advances by 2 and ticks. -/
theorem step_ldVxDt {s : State} {x : RegId} (hs : s.halted = false)
    (hd : decode s.cfg.bulk s.fetchWord = .instr (.ldVxDt x)) :
    step s = .next ((s.clearDiag.fetch.setReg x s.dt).advance .next).tick := by
  have hdt : s.clearDiag.fetch.dt = s.dt := by simp
  have hx : exec (.ldVxDt x) s.clearDiag.fetch = .next ((s.clearDiag.fetch.setReg x s.dt).advance .next) :=
    hdt ▸ rfl
  exact step_of_exec_running hs hd hx (by simp [State.advance_halted, hs])

/-- Settles O46: the row is the sub-key 0x07 of category F, the instruction is one register write, and the tick comes
after it. -/
theorem readDelayTimer : Obligations.ReadDelayTimer := by
  unfold Obligations.ReadDelayTimer
  refine ⟨fun b => rowDecodes_of_decodeF (k := 0x07) (by decide) fun w => decodeF_ldVxDt,
    fun s x => done_setReg s x s.dt, fun s x hs hd => ⟨_, step_ldVxDt hs hd, ?_, ?_⟩⟩
  · rw [State.tick_reg, State.setReg_advance_reg]
  · simp [State.tick_dt_toNat]

end Machine
end Sys2Proof
end

section
/-! PROOFS. The opcode map (spec/30_encoding.md R71 to R76): a word decodes to an instruction exactly when it matches
that instruction's row, the encoder's words match their rows, and the words that match no row are those of R76. -/

namespace Sys2Proof

/-- The word matches the row of `i`, whose operands are the word's fields, and the row exists (R71, R74);
`decode_eq_instr_iff` ties it to the decoder. -/
def Instr.Matches (b : BulkTransfer) (w : Word) (i : Instr) : Prop :=
  w &&& i.row.mask = i.row.pattern ∧ i.fieldsOf w ∧ i.wf b = true

/-! ### What decodes matches its row -/

/-- A category that is a row of its own. -/
theorem row_of_top {w : Word} {t : Nat} (ht : fieldTop w = t) :
    w &&& (0xF000 : Word) = BitVec.ofNat 16 (t * 0x1000) :=
  (row_F000 w (ht ▸ fieldTop_lt w)).2 ht

/-- A row of a category with the sub-key `n`. -/
theorem row_of_key_n {w : Word} {t n : Nat} (ht : fieldTop w = t) (hn : slice w 3 0 = n) :
    w &&& (0xF00F : Word) = BitVec.ofNat 16 (t * 0x1000 + n) :=
  (row_F00F w (ht ▸ fieldTop_lt w) (hn ▸ slice_lt w 3 0)).2 ⟨ht, hn⟩

/-- A row of a category with the sub-key `kk`. -/
theorem row_of_key_kk {w : Word} {t k : Nat} (ht : fieldTop w = t) (hk : slice w 7 0 = k) :
    w &&& (0xF0FF : Word) = BitVec.ofNat 16 (t * 0x1000 + k) :=
  (row_F0FF w (ht ▸ fieldTop_lt w) (hk ▸ slice_lt w 7 0)).2 ⟨ht, hk⟩

theorem matches_of_decode0 {b : BulkTransfer} {w : Word} {i : Instr} (ht : fieldTop w = 0x0)
    (hd : decode0 w = .instr i) : i.Matches b w := by
  unfold decode0 at hd
  split_ifs at hd with hE0 hEE <;> cases hd
  exacts [⟨row_of_key_kk ht hE0, trivial, rfl⟩, ⟨row_of_key_kk ht hEE, trivial, rfl⟩]

theorem matches_of_decode8 {b : BulkTransfer} {w : Word} {i : Instr} (ht : fieldTop w = 0x8)
    (hd : decode8 w = .instr i) : i.Matches b w := by
  unfold decode8 at hd
  split_ifs at hd with h0 h1 h2 h3 h4 h5 h6 h7 hE <;> cases hd
  exacts [⟨row_of_key_n ht h0, ⟨rfl, rfl⟩, rfl⟩, ⟨row_of_key_n ht h1, ⟨rfl, rfl⟩, rfl⟩,
    ⟨row_of_key_n ht h2, ⟨rfl, rfl⟩, rfl⟩, ⟨row_of_key_n ht h3, ⟨rfl, rfl⟩, rfl⟩,
    ⟨row_of_key_n ht h4, ⟨rfl, rfl⟩, rfl⟩, ⟨row_of_key_n ht h5, ⟨rfl, rfl⟩, rfl⟩,
    ⟨row_of_key_n ht h6, rfl, rfl⟩, ⟨row_of_key_n ht h7, ⟨rfl, rfl⟩, rfl⟩, ⟨row_of_key_n ht hE, rfl, rfl⟩]

theorem matches_of_decodeE {b : BulkTransfer} {w : Word} {i : Instr} (ht : fieldTop w = 0xE)
    (hd : decodeE w = .instr i) : i.Matches b w := by
  unfold decodeE at hd
  split_ifs at hd with h9E hA1 <;> cases hd
  exacts [⟨row_of_key_kk ht h9E, rfl, rfl⟩, ⟨row_of_key_kk ht hA1, rfl, rfl⟩]

theorem matches_of_decodeF {b : BulkTransfer} {w : Word} {i : Instr} (ht : fieldTop w = 0xF)
    (hd : decodeF b w = .instr i) : i.Matches b w := by
  unfold decodeF at hd
  split_ifs at hd with h07 h0A h15 h18 h1E h29 h33 h55 h65 <;> cases hd
  exacts [⟨row_of_key_kk ht h07, rfl, rfl⟩, ⟨row_of_key_kk ht h0A, rfl, rfl⟩, ⟨row_of_key_kk ht h15, rfl, rfl⟩,
    ⟨row_of_key_kk ht h18, rfl, rfl⟩, ⟨row_of_key_kk ht h1E, rfl, rfl⟩, ⟨row_of_key_kk ht h29, rfl, rfl⟩,
    ⟨row_of_key_kk ht h33, rfl, rfl⟩, ⟨row_of_key_kk ht h55.1, rfl, decide_eq_true h55.2⟩,
    ⟨row_of_key_kk ht h65.1, rfl, decide_eq_true h65.2⟩]

/-- The decoder answers only instructions whose rows the word matches. -/
theorem matches_of_decode {b : BulkTransfer} {w : Word} {i : Instr} (hd : decode b w = .instr i) :
    i.Matches b w := by
  unfold decode at hd
  split at hd
  case h_1 h => exact matches_of_decode0 h hd
  case h_9 h => exact matches_of_decode8 h hd
  case h_15 h => exact matches_of_decodeE h hd
  case h_16 h => exact matches_of_decodeF h hd
  all_goals cases hd
  case h_2 h | h_3 h | h_11 h | h_12 h => exact ⟨row_of_top h, rfl, rfl⟩
  case h_4 h | h_5 h | h_6 h | h_7 h | h_8 h | h_10 h | h_13 h => exact ⟨row_of_top h, ⟨rfl, rfl⟩, rfl⟩
  case h_14 h => exact ⟨row_of_top h, ⟨rfl, rfl, rfl⟩, rfl⟩

/-! ### What matches a row decodes to it -/

theorem top_of_row {w p : Word} (h : w &&& (0xF000 : Word) = p) : fieldTop w = p.toNat / 0x1000 := by
  have := (and_F000_eq w p).1 h
  omega

theorem key_n_of_row {w p : Word} (h : w &&& (0xF00F : Word) = p) :
    fieldTop w = p.toNat / 0x1000 ∧ slice w 3 0 = p.toNat % 0x1000 := by
  have := (and_F00F_eq w p).1 h
  have := slice_lt w 3 0
  omega

theorem key_kk_of_row {w p : Word} (h : w &&& (0xF0FF : Word) = p) :
    fieldTop w = p.toNat / 0x1000 ∧ slice w 7 0 = p.toNat % 0x1000 := by
  have := (and_F0FF_eq w p).1 h
  have := slice_lt w 7 0
  omega

/-- A word that matches the row of an instruction is dispatched to it: the pattern holds its category and sub-key. -/
theorem decode_of_matches {b : BulkTransfer} {w : Word} {i : Instr} (h : i.Matches b w) : decode b w = .instr i := by
  obtain ⟨hrow, hf, hb⟩ := h
  cases i
  case cls | ret =>
    obtain ⟨ht, hk⟩ := key_kk_of_row hrow
    simp [decode, decode0, ht, hk, Instr.row]
  case jp | call | ldI | jpV0 =>
    obtain rfl := hf
    simp [decode, top_of_row hrow, Instr.row]
  case seImm | sneImm | ldImm | addImm | rnd | seReg | sneReg =>
    obtain ⟨rfl, rfl⟩ := hf
    simp [decode, top_of_row hrow, Instr.row]
  case drw =>
    obtain ⟨rfl, rfl, rfl⟩ := hf
    simp [decode, top_of_row hrow, Instr.row]
  case ldReg | orReg | andReg | xorReg | addReg | sub | subn =>
    obtain ⟨rfl, rfl⟩ := hf
    obtain ⟨ht, hn⟩ := key_n_of_row hrow
    simp [decode, decode8, ht, hn, Instr.row]
  case shr | shl =>
    obtain rfl := hf
    obtain ⟨ht, hn⟩ := key_n_of_row hrow
    simp [decode, decode8, ht, hn, Instr.row]
  case skp | sknp =>
    obtain rfl := hf
    obtain ⟨ht, hk⟩ := key_kk_of_row hrow
    simp [decode, decodeE, ht, hk, Instr.row]
  case ldVxDt | ldVxK | ldDtVx | ldStVx | addIVx | ldFVx | ldBVx =>
    obtain rfl := hf
    obtain ⟨ht, hk⟩ := key_kk_of_row hrow
    simp [decode, decodeF, ht, hk, Instr.row]
  case ldMiVx | ldVxMi =>
    obtain rfl := hf
    obtain ⟨ht, hk⟩ := key_kk_of_row hrow
    simp [decode, decodeF, ht, hk, Instr.row, of_decide_eq_true hb]

theorem decode_eq_instr_iff (b : BulkTransfer) (w : Word) (i : Instr) : decode b w = .instr i ↔ i.Matches b w :=
  ⟨matches_of_decode, decode_of_matches⟩

/-- Settles O5: what decodes matches its row, and what matches a row decodes to it. -/
theorem decodeFollowsTheOpcodeMap : Obligations.DecodeFollowsTheOpcodeMap := by
  unfold Obligations.DecodeFollowsTheOpcodeMap
  exact decode_eq_instr_iff

/-! ### The encoder's words (R71, R74) -/

theorem encode_row (i : Instr) : encode i &&& i.row.mask = i.row.pattern := by
  cases i
  exacts [Laws.RowBits.cls, Laws.RowBits.ret, Laws.RowBits.jp _, Laws.RowBits.call _, Laws.RowBits.seImm _ _,
    Laws.RowBits.sneImm _ _, Laws.RowBits.seReg _ _, Laws.RowBits.ldImm _ _, Laws.RowBits.addImm _ _,
    Laws.RowBits.ldReg _ _, Laws.RowBits.orReg _ _, Laws.RowBits.andReg _ _, Laws.RowBits.xorReg _ _,
    Laws.RowBits.addReg _ _, Laws.RowBits.sub _ _, Laws.RowBits.shr _, Laws.RowBits.subn _ _, Laws.RowBits.shl _,
    Laws.RowBits.sneReg _ _, Laws.RowBits.ldI _, Laws.RowBits.jpV0 _, Laws.RowBits.rnd _ _, Laws.RowBits.drw _ _ _,
    Laws.RowBits.skp _, Laws.RowBits.sknp _, Laws.RowBits.ldVxDt _, Laws.RowBits.ldVxK _, Laws.RowBits.ldDtVx _,
    Laws.RowBits.ldStVx _, Laws.RowBits.addIVx _, Laws.RowBits.ldFVx _, Laws.RowBits.ldBVx _, Laws.RowBits.ldMiVx _,
    Laws.RowBits.ldVxMi _]

/-- The encoder writes every operand into its field. -/
theorem encode_fieldsOf (i : Instr) : i.fieldsOf (encode i) := by
  cases i
  case cls | ret => trivial
  case jp | call | ldI | jpV0 => exact (fieldNnn_wordNnn _ _).symm
  case seImm | sneImm | ldImm | addImm | rnd => exact ⟨(fieldX_wordXkk _ _ _).symm, (fieldKk_wordXkk _ _ _).symm⟩
  case drw =>
    exact ⟨(fieldX_wordXyn _ _ _ _).symm, (fieldY_wordXyn _ _ _ _).symm, (fieldN_wordXyn _ _ _ _).symm⟩
  case shr | shl => exact (fieldX_wordXyn _ _ _ _).symm
  case seReg | sneReg | ldReg | orReg | andReg | xorReg | addReg | sub | subn =>
    exact ⟨(fieldX_wordXyn _ _ _ _).symm, (fieldY_wordXyn _ _ _ _).symm⟩
  all_goals exact (fieldX_wordXkk _ _ _).symm

theorem decode_encode {b : BulkTransfer} {i : Instr} (h : i.wf b = true) : decode b (encode i) = .instr i :=
  decode_of_matches ⟨encode_row i, encode_fieldsOf i, h⟩

/-- Settles O4: the encoder's word matches its instruction's row, and its bytes make up the word again. -/
theorem decodeOfEncodeIsIdentity : Obligations.DecodeOfEncodeIsIdentity := by
  unfold Obligations.DecodeOfEncodeIsIdentity
  intro b i h
  refine ⟨decode_encode h, fun rest => ?_⟩
  rw [encodeBytes, List.cons_append, List.cons_append, List.nil_append, decodeBytes, concat_high_low, decode_encode h]

/-! ### The unrecognized words (R76) -/

theorem decode0_eq_unrecognized_iff (w w' : Word) :
    decode0 w = .unrecognized w' ↔ w' = w ∧ slice w 7 0 ∉ [0xE0, 0xEE] := by
  unfold decode0
  split_ifs with hE0 hEE
  · simp [hE0]
  · simp [hEE]
  · simp [hE0, hEE, eq_comm]

theorem decode8_eq_unrecognized_iff (w w' : Word) :
    decode8 w = .unrecognized w' ↔ w' = w ∧ slice w 3 0 ∈ [0x8, 0x9, 0xA, 0xB, 0xC, 0xD, 0xF] := by
  have := slice_lt w 3 0
  unfold decode8
  split_ifs with h0 h1 h2 h3 h4 h5 h6 h7 hE
  case neg =>
    have hn : slice w 3 0 ∈ [0x8, 0x9, 0xA, 0xB, 0xC, 0xD, 0xF] := by
      simp only [List.mem_cons, List.not_mem_nil, or_false]
      omega
    simp [hn, eq_comm]
  all_goals simp [*]

theorem decodeE_eq_unrecognized_iff (w w' : Word) :
    decodeE w = .unrecognized w' ↔ w' = w ∧ slice w 7 0 ∉ [0x9E, 0xA1] := by
  unfold decodeE
  split_ifs with h9E hA1
  · simp [h9E]
  · simp [hA1]
  · simp [h9E, hA1, eq_comm]

theorem decodeF_eq_unrecognized_iff (b : BulkTransfer) (w w' : Word) :
    decodeF b w = .unrecognized w' ↔ w' = w ∧
      (slice w 7 0 ∉ [0x07, 0x0A, 0x15, 0x18, 0x1E, 0x29, 0x33, 0x55, 0x65] ∨
        slice w 7 0 ∈ [0x55, 0x65] ∧ b = .unsupported) := by
  unfold decodeF
  split_ifs with h07 h0A h15 h18 h1E h29 h33 h55 h65
  case neg =>
    have hk : slice w 7 0 ∉ [0x07, 0x0A, 0x15, 0x18, 0x1E, 0x29, 0x33, 0x55, 0x65] ∨
        slice w 7 0 ∈ [0x55, 0x65] ∧ b = .unsupported := by
      by_cases hbulk : slice w 7 0 ∈ [0x55, 0x65]
      · refine .inr ⟨hbulk, ?_⟩
        cases b
        · simp_all
        · rfl
      · exact .inl (by simp_all)
    simp only [Decoded.unrecognized.injEq, hk, and_true, eq_comm]
  all_goals simp [*]

/-- Settles O6: a category without sub-keys recognizes all its words, the others all but those of their own clause. -/
theorem unrecognizedWordsAreExactlyThese : Obligations.UnrecognizedWordsAreExactlyThese := by
  unfold Obligations.UnrecognizedWordsAreExactlyThese
  intro b w w'
  have top : slice w 15 12 = fieldTop w := rfl
  rw [top]
  unfold decode
  split
  case h_1 h => simpa [h] using decode0_eq_unrecognized_iff w w'
  case h_9 h => simpa [h] using decode8_eq_unrecognized_iff w w'
  case h_15 h => simpa [h] using decodeE_eq_unrecognized_iff w w'
  case h_16 h => simpa [h] using decodeF_eq_unrecognized_iff b w w'
  case h_17 => exact absurd (fieldTop_cases w) (by tauto)
  all_goals simp [*]

/-- Settles O3: seven closed words. -/
theorem sampleWordsDecode : Obligations.SampleWordsDecode := by
  unfold Obligations.SampleWordsDecode
  decide

end Sys2Proof
end

section
/-! PROOFS. What each instruction may change (spec/10_state.md, spec/40_engine.md R105, R106): one list of parts per
instruction, held to its meaning once. Who writes what, which registers change, and how `pc` advances follow. -/

namespace Sys2Proof

/-- The parts of the state that an instruction's rule lets it change; `exec_changesOnly` ties it to the meanings. -/
def Instr.parts : Instr → List Machine.Part
  | .cls => [.display, .redraw, .pc]
  | .ret | .call _ => [.callStack, .halted, .diag, .pc]
  | .jp _ | .jpV0 _ | .seImm _ _ | .sneImm _ _ | .seReg _ _ | .sneReg _ _ | .skp _ | .sknp _ => [.pc]
  | .ldImm _ _ | .addImm _ _ | .ldReg _ _ | .orReg _ _ | .andReg _ _ | .xorReg _ _ | .addReg _ _ | .sub _ _ | .shr _
  | .subn _ _ | .shl _ | .ldVxDt _ => [.regs, .pc]
  | .ldI _ | .ldFVx _ => [.index, .pc]
  | .addIVx _ => [.regs, .index, .pc]
  | .rnd _ _ => [.regs, .draws, .pc]
  | .drw _ _ _ => [.regs, .display, .redraw, .diag, .pc]
  | .ldVxK _ => [.regs, .keywait, .pc]
  | .ldDtVx _ => [.delay, .pc]
  | .ldStVx _ => [.sound, .pc]
  | .ldBVx _ | .ldMiVx _ => [.memory, .diag, .pc]
  | .ldVxMi _ => [.regs, .diag, .pc]

namespace Machine

/-! ### Frames -/

theorem ChangesOnly.refl (s : State) : ChangesOnly [] s s := by
  intro p _
  cases p <;> simp [Part.same]

theorem ChangesOnly.mono {ps qs : List Part} {s t : State} (h : ChangesOnly ps s t) (hsub : ps ⊆ qs) :
    ChangesOnly qs s t := fun p hp => h p fun hm => hp (hsub hm)

/-- A part that changed is one of the frame's. -/
theorem ChangesOnly.mem_of_not_same {ps : List Part} {s t : State} (h : ChangesOnly ps s t) {p : Part}
    (hp : ¬p.same s t) : p ∈ ps := by_contra fun hm => hp (h p hm)

/-! ### The effects of the instructions (R20 to R34) -/

theorem State.setRegFlag_changesOnly (s : State) (x : RegId) (b f : Byte) :
    ChangesOnly [.regs] s (s.setRegFlag x b f) :=
  ((s.setReg_changesOnly x b).trans (State.setReg_changesOnly _ VF f)).mono (by simp)

theorem State.drawByte_changesOnly (s : State) : ChangesOnly [.draws] s s.drawByte.2 := by
  intro p hp
  cases p <;> simp [Part.same] at hp ⊢

theorem State.markRedraw_changesOnly (s : State) : ChangesOnly [.redraw] s s.markRedraw := by
  intro p hp
  cases p <;> simp [Part.same] at hp ⊢

theorem State.drawRows_changesOnly (s : State) (cx cy n : Nat) :
    ChangesOnly [.display, .diag] s (s.drawRows cx cy n).1 := by
  intro p hp
  cases p <;> simp [Part.same] at hp ⊢

theorem State.storeRegs_changesOnly (s : State) (n : Nat) : ChangesOnly [.memory, .diag] s (s.storeRegs n) := by
  intro p hp
  cases p <;> simp [Part.same] at hp ⊢

theorem State.loadRegs_changesOnly (s : State) (n : Nat) : ChangesOnly [.regs, .diag] s (s.loadRegs n) := by
  intro p hp
  cases p <;> simp [Part.same] at hp ⊢

theorem changesOnly_display_redraw (s : State) (fb : Fb) (r : Bool) :
    ChangesOnly [.display, .redraw] s { s with fb := fb, redraw := r } := by
  intro p hp
  cases p <;> simp [Part.same, State.reg, State.byteAt] at hp ⊢

theorem changesOnly_delay (s : State) (b : Byte) : ChangesOnly [.delay] s { s with dt := b } := by
  intro p hp
  cases p <;> simp [Part.same, State.reg, State.byteAt] at hp ⊢

theorem changesOnly_sound (s : State) (b : Byte) : ChangesOnly [.sound] s { s with st := b } := by
  intro p hp
  cases p <;> simp [Part.same, State.reg, State.byteAt] at hp ⊢

theorem changesOnly_keywait (s : State) (b : Bool) : ChangesOnly [.keywait] s { s with keywait := b } := by
  intro p hp
  cases p <;> simp [Part.same, State.reg, State.byteAt] at hp ⊢

theorem changesOnly_callStack (s : State) (n : Fin 17) (ws : Vector Word 16) :
    ChangesOnly [.callStack] s { s with sp := n, stack := ws } := by
  intro p hp
  cases p <;> simp [Part.same, State.reg, State.byteAt] at hp ⊢

theorem changesOnly_halted (s : State) (b : Bool) : ChangesOnly [.halted] s { s with halted := b } := by
  intro p hp
  cases p <;> simp [Part.same, State.reg, State.byteAt] at hp ⊢

theorem State.raise_changesOnly (s : State) (d : Diag) : ChangesOnly [.diag] s (s.raise d) := changesOnly_diag s _

theorem State.clearDiag_changesOnly (s : State) : ChangesOnly [.diag] s s.clearDiag := changesOnly_diag s []

/-! ### Stack errors (R242) -/

theorem State.stackFail_of_halt {s : State} (d : Diag) (h : s.cfg.stackPolicy = .halt) :
    s.stackFail d = { s.raise d with halted := true } := by
  simp only [State.stackFail_eq, h]

theorem State.stackFail_of_ignore {s : State} (d : Diag) (h : s.cfg.stackPolicy = .ignore) :
    s.stackFail d = (s.raise d).advance .next := by
  rw [State.stackFail, h, stackFlow]

theorem State.stackFail_halt_changesOnly {s : State} (d : Diag) (h : s.cfg.stackPolicy = .halt) :
    ChangesOnly [.halted, .diag] s (s.stackFail d) := by
  rw [State.stackFail_of_halt d h]
  exact ((s.raise_changesOnly d).trans (changesOnly_halted _ true)).mono (by simp)

theorem State.stackFail_ignore_changesOnly {s : State} (d : Diag) (h : s.cfg.stackPolicy = .ignore) :
    ChangesOnly [.pc, .diag] s (s.stackFail d) := by
  rw [State.stackFail_of_ignore d h]
  exact ((s.raise_changesOnly d).trans (State.advance_changesOnly _ (by simp))).mono (by simp)

/-- Under either policy. -/
theorem State.stackFail_changesOnly (s : State) (d : Diag) : ChangesOnly [.halted, .diag, .pc] s (s.stackFail d) := by
  cases h : s.cfg.stackPolicy
  · exact (s.stackFail_halt_changesOnly d h).mono (by simp)
  · exact (s.stackFail_ignore_changesOnly d h).mono (by simp)

@[simp] theorem State.stackFail_diag (s : State) (d : Diag) : (s.stackFail d).diag = s.diag ++ [d] :=
  State.advance_diag _ _

/-! ### The frame of every instruction -/

theorem done_next {f : Flow} {u t : State} (h : done f u = .next t) : u.advance f = t := Host.Outcome.next.inj h

/-- The advance adds `pc` to what the effect changes. -/
theorem done_changesOnly {ps : List Part} {f : Flow} {s u t : State} (hu : ChangesOnly ps s u) (h : done f u = .next t)
    (hf : f ≠ .fatal) : ChangesOnly (ps ++ [.pc]) s t :=
  done_next h ▸ hu.trans (u.advance_changesOnly hf)

theorem execRet_entry_changesOnly {s t : State} (hs : 0 < s.sp.val) (h : execRet s = .next t) :
    ChangesOnly [.callStack, .pc] s t := by
  rw [execRet_of_entry s hs] at h
  exact done_changesOnly (changesOnly_callStack s _ s.stack) h (by simp)

theorem execCall_room_changesOnly {nnn : BitVec 12} {s t : State} (hs : s.sp.val < 16) (h : execCall nnn s = .next t) :
    ChangesOnly [.callStack, .pc] s t := by
  rw [execCall_of_room nnn s hs] at h
  exact done_changesOnly (changesOnly_callStack s _ _) h (by simp)

theorem execLdVxK_changesOnly {x : RegId} {s t : State} (h : execLdVxK x s = .next t) :
    ChangesOnly [.regs, .keywait, .pc] s t := by
  cases hk : s.leastPressed with
  | some k =>
    rw [execLdVxK_of_pressed x s hk] at h
    exact done_changesOnly ((s.setReg_changesOnly x _).trans (changesOnly_keywait _ false)) h (by simp)
  | none =>
    rw [execLdVxK_of_none x s hk] at h
    exact (done_changesOnly (changesOnly_keywait s true) h (by simp)).mono (by simp)

/-- An instruction changes only the parts of its list. -/
theorem exec_changesOnly {i : Instr} {s t : State} (h : exec i s = .next t) : ChangesOnly i.parts s t := by
  cases i
  case ret =>
    by_cases hs : 0 < s.sp.val
    · exact (execRet_entry_changesOnly hs h).mono (by simp [Instr.parts])
    · obtain rfl := Host.Outcome.next.inj ((execRet_of_empty s (by omega)).symm.trans h)
      exact (s.stackFail_changesOnly _).mono (by simp [Instr.parts])
  case call nnn =>
    by_cases hs : s.sp.val < 16
    · exact (execCall_room_changesOnly hs h).mono (by simp [Instr.parts])
    · obtain rfl := Host.Outcome.next.inj ((execCall_of_full nnn s (by omega)).symm.trans h)
      exact (s.stackFail_changesOnly _).mono (by simp [Instr.parts])
  case cls => exact done_changesOnly (changesOnly_display_redraw s _ _) h (by simp)
  case jp | jpV0 => exact done_changesOnly (.refl s) h (by simp)
  case seImm | sneImm | seReg | sneReg | skp | sknp => exact done_changesOnly (.refl s) h (skipIf_ne_fatal _)
  case ldImm | addImm | ldReg | orReg | andReg | xorReg | ldVxDt =>
    exact done_changesOnly (s.setReg_changesOnly _ _) h (by simp)
  case addReg | sub | shr | subn | shl => exact done_changesOnly (s.setRegFlag_changesOnly _ _ _) h (by simp)
  case ldI | ldFVx => exact done_changesOnly (s.setI_changesOnly _) h (by simp)
  case addIVx =>
    exact (done_changesOnly ((s.setI_changesOnly _).trans (State.setReg_changesOnly _ VF _)) h (by simp)).mono
      (by simp [Instr.parts])
  case rnd =>
    exact (done_changesOnly (s.drawByte_changesOnly.trans (State.setReg_changesOnly _ _ _)) h (by simp)).mono
      (by simp [Instr.parts])
  case drw =>
    exact (done_changesOnly (((s.drawRows_changesOnly _ _ _).trans (State.markRedraw_changesOnly _)).trans
      (State.setReg_changesOnly _ VF _)) h (by simp)).mono (by simp [Instr.parts])
  case ldVxK => exact execLdVxK_changesOnly h
  case ldDtVx => exact done_changesOnly (changesOnly_delay s _) h (by simp)
  case ldStVx => exact done_changesOnly (changesOnly_sound s _) h (by simp)
  case ldBVx =>
    exact (done_changesOnly (((s.memWrite_changesOnly _ _).trans (State.memWrite_changesOnly _ _ _)).trans
      (State.memWrite_changesOnly _ _ _)) h (by simp)).mono (by simp [Instr.parts])
  case ldMiVx => exact done_changesOnly (s.storeRegs_changesOnly _) h (by simp)
  case ldVxMi => exact done_changesOnly (s.loadRegs_changesOnly _) h (by simp)

/-! ### Who may write what -/

/-- An instruction that changes a part has it in its list. -/
theorem exec_writer {i : Instr} {s t : State} (h : exec i s = .next t) {p : Part} (hp : ¬p.same s t) : p ∈ i.parts :=
  (exec_changesOnly h).mem_of_not_same hp

theorem index_mem_parts {i : Instr} (h : .index ∈ i.parts) : (∃ nnn, i = .ldI nnn) ∨ ∃ x, i = .addIVx x ∨ i = .ldFVx x := by
  cases i <;> simp [Instr.parts] at h ⊢

theorem display_mem_parts {i : Instr} (h : .display ∈ i.parts ∨ .redraw ∈ i.parts) :
    i = .cls ∨ ∃ x y n, i = .drw x y n := by
  cases i <;> simp [Instr.parts] at h ⊢

theorem stack_mem_parts {i : Instr} (h : .callStack ∈ i.parts ∨ .halted ∈ i.parts) :
    i = .ret ∨ ∃ nnn, i = .call nnn := by
  cases i <;> simp [Instr.parts] at h ⊢

theorem delay_mem_parts {i : Instr} (h : .delay ∈ i.parts) : ∃ x, i = .ldDtVx x := by
  cases i <;> simp [Instr.parts] at h ⊢

theorem sound_mem_parts {i : Instr} (h : .sound ∈ i.parts) : ∃ x, i = .ldStVx x := by
  cases i <;> simp [Instr.parts] at h ⊢

theorem keywait_mem_parts {i : Instr} (h : .keywait ∈ i.parts) : ∃ x, i = .ldVxK x := by
  cases i <;> simp [Instr.parts] at h ⊢

theorem draws_mem_parts {i : Instr} (h : .draws ∈ i.parts) : ∃ x kk, i = .rnd x kk := by
  cases i <;> simp [Instr.parts] at h ⊢

theorem memory_mem_parts {i : Instr} (h : .memory ∈ i.parts) : ∃ x, i = .ldBVx x ∨ i = .ldMiVx x := by
  cases i <;> simp [Instr.parts] at h ⊢

/-- No instruction writes the tone, the keys, the latch or the configuration. -/
theorem not_mem_parts (i : Instr) :
    .tone ∉ i.parts ∧ .keys ∉ i.parts ∧ .latch ∉ i.parts ∧ .config ∉ i.parts := by
  cases i <;> simp [Instr.parts]

theorem exec_cfg {i : Instr} {s t : State} (h : exec i s = .next t) : t.cfg = s.cfg := by
  obtain ⟨-, -, -, hconfig⟩ := not_mem_parts i
  exact exec_changesOnly h .config hconfig

/-- Settles O58: each part that changed is in the instruction's list, and few lists hold it. -/
theorem onlyItsWritersChangeAPart : Obligations.OnlyItsWritersChangeAPart := by
  unfold Obligations.OnlyItsWritersChangeAPart
  intro i s t h
  have frame := exec_changesOnly h
  obtain ⟨htone, hkeys, hlatch, hconfig⟩ := not_mem_parts i
  refine ⟨fun hc => index_mem_parts (exec_writer h hc), fun hc => display_mem_parts ?_, fun hc => stack_mem_parts ?_,
    fun hc => stack_mem_parts (.inr (exec_writer h hc)), fun hc => delay_mem_parts (exec_writer h hc),
    fun hc => sound_mem_parts (exec_writer h hc), fun hc => keywait_mem_parts (exec_writer h hc),
    fun hc => draws_mem_parts (exec_writer h hc), fun hc => memory_mem_parts (exec_writer h (not_forall.2 hc)),
    frame .tone htone, frame .keys hkeys, frame .latch hlatch, frame .config hconfig⟩
  · exact hc.imp (exec_writer h (p := .display)) (exec_writer h (p := .redraw))
  · exact .inl (exec_writer h (p := .callStack) (by simpa [Part.same, imp_iff_not_or] using hc))

end Machine
end Sys2Proof
end

section
/-! PROOFS. What all instructions have in common (spec/10_state.md R21, spec/42_alu.md R150, spec/40_engine.md R106):
which registers an instruction changes, what a flag can be, and how `pc` advances. -/

namespace Sys2Proof.Machine

/-! ### Registers and the flag -/

theorem done_reg {f : Flow} {u t : State} (h : done f u = .next t) (r : RegId) : t.reg r = u.reg r := by
  rw [← done_next h, State.advance_reg]

theorem flagByte_cases (b : Bool) : flagByte b = 0 ∨ flagByte b = 1 := by cases b <;> simp [flagByte]

theorem flagByte_eq_one_iff (b : Bool) : flagByte b = 1 ↔ b = true := by cases b <;> simp [flagByte]

theorem State.setRegFlag_reg_VF (s : State) (x : RegId) (b f : Byte) : (s.setRegFlag x b f).reg VF = f :=
  State.reg_setReg_same _ VF f

theorem State.setRegFlag_otherRegs (s : State) (x : RegId) (b f : Byte) :
    OtherRegs [x, VF] s (s.setRegFlag x b f) := by
  intro r hr
  rw [List.mem_cons, List.mem_singleton, not_or] at hr
  rw [State.reg_setRegFlag, if_neg hr.2, if_neg hr.1]

/-- A flag writer ends with 0 or 1 in `VF`: the flag is written last (R150). -/
theorem exec_flag {i : Instr} {s t : State} (h : exec i s = .next t) (hi : i.writesFlag = true) :
    t.reg VF = 0 ∨ t.reg VF = 1 := by
  cases i
  case addReg | sub | shr | subn | shl =>
    rw [done_reg h, State.setRegFlag_reg_VF]
    exact flagByte_cases _
  case addIVx | drw =>
    rw [done_reg h, State.reg_setReg_same]
    exact flagByte_cases _
  all_goals cases hi

theorem execLdVxK_otherRegs {x : RegId} {s t : State} (h : execLdVxK x s = .next t) : OtherRegs [x] s t := by
  intro r hr
  cases hk : s.leastPressed with
  | some k =>
    rw [execLdVxK_of_pressed x s hk] at h
    exact (done_reg h r).trans (s.setReg_otherRegs x _ r hr)
  | none =>
    rw [execLdVxK_of_none x s hk] at h
    exact done_reg h r

theorem execLdVxMi_reg {x : RegId} {s t : State} (h : execLdVxMi x s = .next t) (r : RegId) :
    t.reg r = if r ≤ x then s.byteAt (s.bound (s.indexed r.val)) else s.reg r := by
  rw [done_reg h, State.loadRegs_reg _ _ (by omega)]
  simp only [Nat.lt_succ_iff, Fin.le_def]

/-- A register that is neither the destination nor the flag keeps its value. -/
theorem exec_reg_other {i : Instr} {s t : State} (h : exec i s = .next t) {r : RegId} (hx : i.writesX r ≠ true)
    (hf : ¬(r = VF ∧ i.writesFlag = true)) : t.reg r = s.reg r := by
  cases i
  case ldImm | addImm | ldReg | orReg | andReg | xorReg | ldVxDt | rnd =>
    exact (done_reg h r).trans (State.reg_setReg_other _ _ (by simpa [Instr.writesX] using hx))
  case addReg | sub | shr | subn | shl =>
    refine (done_reg h r).trans (s.setRegFlag_otherRegs _ _ _ r ?_)
    simpa [Instr.writesX, Instr.writesFlag] using And.intro hx hf
  case addIVx => exact (done_reg h r).trans (State.reg_setReg_other _ _ fun e => hf ⟨e, rfl⟩)
  case drw =>
    rw [done_reg h, State.reg_setReg_other _ _ fun e => hf ⟨e, rfl⟩, State.markRedraw_reg, State.drawRows_reg]
  case ldVxK => exact execLdVxK_otherRegs h r (by simpa [Instr.writesX] using hx)
  case ldVxMi => exact (execLdVxMi_reg h r).trans (if_neg (by simpa [Instr.writesX] using hx))
  all_goals exact exec_changesOnly h .regs (by simp [Instr.parts]) r

/-- Settles O36: a flag writer ends in its flag, and a register that is no destination and no flag is kept. -/
theorem flagAndDestinationDiscipline : Obligations.FlagAndDestinationDiscipline := by
  unfold Obligations.FlagAndDestinationDiscipline
  refine fun i s t h => ⟨exec_flag h, fun r hr => ?_⟩
  by_contra hw
  obtain ⟨hx, hf⟩ := not_or.1 hw
  exact hr (exec_reg_other h hx hf)

/-! ### Advance (R106) -/

/-- An effect that leaves `pc` alone, and then the advance by 2. -/
theorem done_next_advanced {s u t : State} (h : done .next u = .next t) (hu : u.pc = s.pc) : Advanced 2 s t := by
  rw [Advanced, ← done_next h, State.advance_next_pc_toNat, hu]

theorem done_skipIf_advanced {s t : State} {c : Bool} (h : done (skipIf c) s = .next t) :
    Advanced 2 s t ∨ Advanced 4 s t := by
  rw [← done_next h]
  cases c
  · exact .inl (s.advance_skipIf_pc_toNat false)
  · exact .inr (s.advance_skipIf_pc_toNat true)

theorem execLdVxK_advanced {x : RegId} {s t : State} (h : execLdVxK x s = .next t) :
    Advanced 2 s t ∨ t.pc = s.pc := by
  cases hk : s.leastPressed with
  | some k =>
    rw [execLdVxK_of_pressed x s hk] at h
    exact .inl (done_next_advanced h rfl)
  | none =>
    rw [execLdVxK_of_none x s hk] at h
    exact .inr (done_next h ▸ rfl)

/-- Settles O28, by the advance that each instruction's meaning ends in. -/
theorem advancePolicyOfEveryInstruction : Obligations.AdvancePolicyOfEveryInstruction := by
  unfold Obligations.AdvancePolicyOfEveryInstruction
  intro i s t h
  cases i
  case ret | jp | call | jpV0 => trivial
  case seImm => exact done_next h ▸ advanced_skipIf s _
  case sneImm => exact done_next h ▸ advanced_skipIf_not s _
  case seReg | sneReg | skp | sknp => exact done_skipIf_advanced h
  case ldVxK => exact execLdVxK_advanced h
  case addReg | sub | shr | subn | shl => exact done_next_advanced h (State.setRegFlag_pc _ _ _ _)
  all_goals exact done_next_advanced h (by simp)

end Sys2Proof.Machine
end

section
/-! PROOFS. Calls, returns, computed jumps and the register and key skips (spec/41_control_flow.md,
spec/45_timers_input.md R224, R225; stack errors: spec/60_exceptions.md R242). -/

namespace Sys2Proof.Machine

/-! ### Computed jump (R137) -/

/-- The sum of 12 bits and a byte does not reach 2^16. -/
theorem jumpSum_mod (nnn : BitVec 12) (v0 : Byte) : jumpSum nnn v0 % 65536 = nnn.toNat + v0.toNat := by
  have := nnn.isLt
  have := v0.isLt
  unfold jumpSum
  omega

/-- Settles O20: one advance to the sum. -/
theorem computedJumpAddsV0 : Obligations.ComputedJumpAddsV0 := by
  unfold Obligations.ComputedJumpAddsV0
  exact fun s nnn => ⟨_, rfl, (s.advance_set_pc_toNat _).trans (jumpSum_mod nnn _), s.advance_changesOnly (by simp)⟩

/-! ### Call and return (R130, R132) -/

/-- Settles O21: the entry at `SP` is the one `Vector.set` writes. -/
theorem callPushesItsOwnAddress : Obligations.CallPushesItsOwnAddress := by
  unfold Obligations.CallPushesItsOwnAddress
  intro s nnn h
  have hx : exec (.call nnn) s = _ := execCall_of_room nnn s h
  refine ⟨_, hx, rfl, ?_, fun j hj => ?_, State.advance_set_nnn_pc_toNat _ nnn, execCall_room_changesOnly h hx⟩
  · simp
  · simp [hj.symm]

/-- Settles O22: the pop answers the entry below `SP`, and the advance goes 2 behind it. -/
theorem returnGoesBehindTheCall : Obligations.ReturnGoesBehindTheCall := by
  unfold Obligations.ReturnGoesBehindTheCall
  intro s h
  have hx : exec .ret s = _ := execRet_of_entry s h
  exact ⟨_, hx, rfl, rfl, State.advance_set_pc_toNat _ _, execRet_entry_changesOnly h hx⟩

/-- Settles O23: the return pops the entry the call pushed. -/
theorem callThenReturnComesBack : Obligations.CallThenReturnComesBack := by
  unfold Obligations.CallThenReturnComesBack
  intro s t u nnn hs hcall hsp hstack
  obtain ⟨t', hcall', hsp', htop, hold, -⟩ := callPushesItsOwnAddress s nnn hs
  obtain rfl : t' = t := Host.Outcome.next.inj (hcall'.symm.trans hcall)
  have husp : u.sp.val = s.sp.val + 1 := by rw [hsp, hsp']
  obtain ⟨v, hret, hvsp, hvstack, hvpc, -⟩ := returnGoesBehindTheCall u (by omega)
  refine ⟨v, hret, ?_, Fin.ext (by omega), fun j hj => ?_⟩
  · simpa [Advanced, husp, hstack, htop] using hvpc
  · rw [hvstack, hstack, hold j (by omega)]

/-! ### Stack errors (R242) -/

/-- Settles O24: both errors end in `State.stackFail`. -/
theorem stackErrorHaltsOrIsIgnored : Obligations.StackErrorHaltsOrIsIgnored := by
  unfold Obligations.StackErrorHaltsOrIsIgnored
  intro s i d hd
  have hx : exec i s = .next (s.stackFail d) := by
    obtain ⟨rfl, hs, rfl⟩ | ⟨⟨nnn, rfl⟩, hs, rfl⟩ := hd
    · exact execRet_of_empty s hs
    · exact execCall_of_full nnn s hs
  refine ⟨_, hx, s.stackFail_diag d, fun hp => ⟨?_, s.stackFail_halt_changesOnly d hp⟩,
    fun hp => ⟨?_, s.stackFail_ignore_changesOnly d hp⟩⟩
  · rw [State.stackFail_of_halt d hp]
  · rw [State.stackFail_of_ignore d hp]
    exact (s.raise d).advance_next_pc_toNat

/-! ### Skips (R135, R136, R224, R225) -/

/-- Settles O26: each instruction is a skip on its condition. -/
theorem skipOnRegisters : Obligations.SkipOnRegisters := by
  unfold Obligations.SkipOnRegisters
  exact fun s x y => ⟨⟨_, rfl, advanced_skipIf s _, s.advance_changesOnly (skipIf_ne_fatal _)⟩,
    ⟨_, rfl, advanced_skipIf_not s _, s.advance_changesOnly (skipIf_ne_fatal _)⟩⟩

/-- The selected key's state: the key of the low four bits of `V[x]` (R223). -/
theorem State.pressed_keySelect (s : State) (x : RegId) :
    s.pressed (s.keySelect x) = s.key[Fin.ofNat 16 ((s.reg x).toNat % 16)] :=
  congrArg s.pressed (Fin.ext (by simp [State.keySelect_val]))

/-- Settles O27: each instruction is a skip on the selected key. -/
theorem skipOnKey : Obligations.SkipOnKey := by
  unfold Obligations.SkipOnKey
  intro s x
  rw [← State.pressed_keySelect]
  refine ⟨⟨_, rfl, s.advance_skipIf_pc_toNat _, s.advance_changesOnly (skipIf_ne_fatal _)⟩,
    ⟨_, rfl, ?_, s.advance_changesOnly (skipIf_ne_fatal _)⟩⟩
  rw [Advanced, s.advance_skipIf_pc_toNat]
  cases s.pressed (s.keySelect x) <;> rfl

end Sys2Proof.Machine
end

section
/-! PROOFS. The ALU (spec/42_alu.md R154 to R162): each instruction is one register write, or a register and a flag
write, of the results on bytes said here as numbers. -/

namespace Sys2Proof.Machine

/-! ### Results and flags as numbers -/

theorem flagByte_decide (p : Prop) [Decidable p] : flagByte (decide p) = if p then 1 else 0 := by
  by_cases h : p <;> simp [flagByte, h]

theorem flagByte_toNat (b : Bool) : (flagByte b).toNat = b.toNat := by cases b <;> rfl

theorem aluSub_toNat (a b : Byte) : (aluSub a b).toNat = (a.toNat + 256 - b.toNat) % 256 := BitVec.toNat_ofNat _ _

theorem aluShl_toNat (a : Byte) : (aluShl a).toNat = a.toNat * 2 % 256 := BitVec.toNat_ofNat _ _

theorem aluShr_toNat (a : Byte) : (aluShr a).toNat = a.toNat / 2 :=
  (BitVec.toNat_ofNat _ _).trans (Nat.mod_eq_of_lt ((Nat.div_le_self _ _).trans_lt a.isLt))

/-- A bit of a byte, as a number. -/
theorem getLsbD_toNat (a : Byte) (k : Nat) : (a.getLsbD k).toNat = a.toNat / 2 ^ k % 2 := by
  rw [BitVec.getLsbD, Nat.toNat_testBit]

theorem shrOut_toNat (a : Byte) : (shrOut a).toNat = a.toNat % 2 := by
  rw [shrOut, flagByte_toNat, getLsbD_toNat, pow_zero, Nat.div_one]

theorem shlOut_toNat (a : Byte) : (shlOut a).toNat = a.toNat / 128 := by
  have := a.isLt
  rw [shlOut, flagByte_toNat, getLsbD_toNat]
  omega

/-! ### A register and a flag, and the advance by 2 after them (R150) -/

/-- An instruction that ends in one register write and no flag. -/
theorem done_setReg_writesRegs (s : State) (x : RegId) (b : Byte) :
    ∃ t, done .next (s.setReg x b) = .next t ∧ t.reg x = b ∧ WritesRegs [x] s t :=
  ⟨_, rfl, s.setReg_advance_reg x b .next, s.setReg_advance_writesRegs x b⟩

/-- An instruction that ends in a register write and then the flag: the register keeps its result unless it is `VF`. -/
theorem done_setRegFlag (s : State) (x : RegId) (b f : Byte) :
    ∃ t, done .next (s.setRegFlag x b f) = .next t ∧ (x ≠ VF → t.reg x = b) ∧ t.reg VF = f ∧
      WritesRegs [x, VF] s t := by
  refine ⟨_, rfl, fun hx => ?_, ?_, fun r hr => ?_, ?_, ?_⟩
  · rw [State.advance_reg, State.reg_setRegFlag, if_neg hx, if_pos rfl]
  · rw [State.advance_reg, State.setRegFlag_reg_VF]
  · rw [State.advance_reg, s.setRegFlag_otherRegs x b f r hr]
  · exact State.advance_next_pc_toNat _
  · exact (s.setRegFlag_changesOnly x b f).trans (State.advance_changesOnly _ (by simp))

/-! ### The obligations -/

/-- Settles O31: one register write each, of the byte whose bits the library reads. -/
theorem logicIsBitwise : Obligations.LogicIsBitwise := by
  unfold Obligations.LogicIsBitwise
  intro s x y
  obtain ⟨t, ht, hx, hframe⟩ := done_setReg_writesRegs s x (s.reg x ||| s.reg y)
  obtain ⟨u, hu, hx', hframe'⟩ := done_setReg_writesRegs s x (s.reg x &&& s.reg y)
  obtain ⟨v, hv, hx'', hframe''⟩ := done_setReg_writesRegs s x (s.reg x ^^^ s.reg y)
  exact ⟨⟨t, ht, fun k _ => by rw [hx, BitVec.getLsbD_or], hframe⟩,
    ⟨u, hu, fun k _ => by rw [hx', BitVec.getLsbD_and], hframe'⟩,
    ⟨v, hv, fun k _ => by rw [hx'', BitVec.getLsbD_xor], hframe''⟩⟩

/-- Settles O32: the carry is read off the unbounded sum. -/
theorem addSetsCarry : Obligations.AddSetsCarry := by
  unfold Obligations.AddSetsCarry
  intro s x y
  obtain ⟨t, ht, hx, hf, hframe⟩ :=
    done_setRegFlag s x (aluAdd (s.reg x) (s.reg y)) (carryOut (s.reg x) (s.reg y))
  exact ⟨t, ht, fun h => by rw [hx h, aluAdd_toNat], hf.trans (flagByte_decide _), hframe⟩

/-- What `8xy5` and `8xy7` share: `V[x]` becomes `a - b`, whatever the two operands are. -/
theorem done_aluSub (s : State) (x : RegId) (a b : Byte) :
    ∃ t, done .next (s.setRegFlag x (aluSub a b) (noBorrow a b)) = .next t ∧
      (x ≠ VF → (t.reg x).toNat = (a.toNat + 256 - b.toNat) % 256) ∧
      t.reg VF = (if b.toNat ≤ a.toNat then 1 else 0) ∧ WritesRegs [x, VF] s t := by
  obtain ⟨t, ht, hx, hf, hframe⟩ := done_setRegFlag s x (aluSub a b) (noBorrow a b)
  exact ⟨t, ht, fun h => by rw [hx h, aluSub_toNat], hf.trans (flagByte_decide _), hframe⟩

/-- Settles O33: the two instructions are one subtraction with its operands exchanged. -/
theorem subtractSetsNoBorrow : Obligations.SubtractSetsNoBorrow := by
  unfold Obligations.SubtractSetsNoBorrow
  exact fun s x y => ⟨done_aluSub s x (s.reg x) (s.reg y), done_aluSub s x (s.reg y) (s.reg x)⟩

/-- Settles O34: the bits 0 and 7 that go out are a remainder and a quotient. -/
theorem shiftsMoveOneBitOut : Obligations.ShiftsMoveOneBitOut := by
  unfold Obligations.ShiftsMoveOneBitOut
  intro s x
  obtain ⟨t, ht, hx, hf, hframe⟩ := done_setRegFlag s x (aluShr (s.reg x)) (shrOut (s.reg x))
  obtain ⟨u, hu, hx', hf', hframe'⟩ := done_setRegFlag s x (aluShl (s.reg x)) (shlOut (s.reg x))
  exact ⟨⟨t, ht, fun h => by rw [hx h, aluShr_toNat], by rw [hf, shrOut_toNat], hframe⟩,
    ⟨u, hu, fun h => by rw [hx' h, aluShl_toNat], by rw [hf', shlOut_toNat], hframe'⟩⟩

/-- Settles O35: nothing is used of the drawn byte but that it is the one `drawByte` answers. -/
theorem randomByteUnderMask : Obligations.RandomByteUnderMask := by
  unfold Obligations.RandomByteUnderMask
  intro s x kk
  have hx : exec (.rnd x kk) s = done .next (s.drawByte.2.setReg x (Config.randByte s.draws &&& kk)) := rfl
  have hreg : ((s.drawByte.2.setReg x (Config.randByte s.draws &&& kk)).advance .next).reg x =
      Config.randByte s.draws &&& kk := State.setReg_advance_reg _ x _ .next
  refine ⟨_, hx, hreg, fun hkk => ?_, rfl, fun r hr => ?_, State.advance_next_pc_toNat _, exec_changesOnly hx⟩
  · rw [hreg, hkk]
    exact BitVec.and_zero
  · rw [State.advance_reg]
    exact s.drawByte.2.setReg_otherRegs x _ r hr

end Sys2Proof.Machine
end

section
/-! PROOFS. The index register and the memory transfers (spec/43_index_memory.md R182 to R186). -/

namespace Sys2Proof.Machine

/-! ### The index register (R182, R183) -/

/-- Settles O38: `I` takes the narrowed sum, and `VF` whether the unbounded one is out of range. -/
theorem addToIndex : Obligations.AddToIndex := by
  unfold Obligations.AddToIndex
  intro s x
  have hx : exec (.addIVx x) s =
    done .next ((s.setI (indexAdd s.i (s.reg x))).setReg VF (indexOut s.i (s.reg x))) := rfl
  refine ⟨_, hx, ?_, ?_, fun r hr => ?_, State.advance_next_pc_toNat _, exec_changesOnly hx⟩
  · exact (congrArg BitVec.toNat (State.advance_i _ _)).trans (BitVec.toNat_ofNat _ _)
  · exact (State.setReg_advance_reg _ VF _ .next).trans (flagByte_decide _)
  · rw [State.advance_reg, State.setReg_otherRegs _ VF _ r hr, State.setI_reg]

/-- Five times a byte does not reach 2^16. -/
theorem trunc16_glyphAddr_toNat (b : Byte) : (trunc16 (glyphAddr b)).toNat = b.toNat * 5 := by
  have := b.isLt
  rw [glyphAddr, trunc16, BitVec.toNat_ofNat]
  omega

/-- Settles O39: one write of `I`. -/
theorem indexOfGlyph : Obligations.IndexOfGlyph := by
  unfold Obligations.IndexOfGlyph
  intro s x
  obtain ⟨t, ht, hi, hpc, hframe⟩ := done_setI s (trunc16 (glyphAddr (s.reg x)))
  exact ⟨t, ht, by rw [hi, trunc16_glyphAddr_toNat], hpc, hframe⟩

/-! ### Decimal digits (R184) -/

theorem hundreds_toNat (b : Byte) : (hundreds b).toNat = b.toNat / 100 := by
  have := b.isLt
  rw [hundreds, trunc8, BitVec.toNat_ofNat]
  omega

theorem tens_toNat (b : Byte) : (tens b).toNat = b.toNat / 10 % 10 := by
  rw [tens, trunc8, BitVec.toNat_ofNat]
  omega

theorem ones_toNat (b : Byte) : (ones b).toNat = b.toNat % 10 := by
  rw [ones, trunc8, BitVec.toNat_ofNat]
  omega

/-- What `Fx33` leaves at an address: the last digit stored there. -/
theorem execLdBVx_byteAt {x : RegId} {s t : State} (h : execLdBVx x s = .next t) (a : Nat) :
    t.byteAt a = if a = s.bound (s.i.toNat + 2) then ones (s.reg x)
      else if a = s.bound (s.i.toNat + 1) then tens (s.reg x)
      else if a = s.bound s.i.toNat then hundreds (s.reg x) else s.byteAt a := by
  rw [← done_next h, State.advance_byteAt]
  simp only [State.byteAt_memWrite, State.memWrite_bound]
  rfl

theorem execLdBVx_diag {x : RegId} {s t : State} (h : execLdBVx x s = .next t) :
    t.diag = s.diag ++ addrDiags [s.i.toNat, s.i.toNat + 1, s.i.toNat + 2] := by
  rw [← done_next h, State.advance_diag]
  simp only [State.memWrite_diag, List.append_assoc, ← addrDiags_append]
  rfl

/-- Settles O40: the digits are stored in ascending order, so that of the ones stands in any case. -/
theorem storeDecimalDigits : Obligations.StoreDecimalDigits := by
  unfold Obligations.StoreDecimalDigits
  intro s x
  have hx : exec (.ldBVx x) s = done .next _ := rfl
  have hbyte := execLdBVx_byteAt hx
  refine ⟨_, hx, ?_, fun h12 => ?_, fun h01 h02 => ?_, fun a ha => ?_, execLdBVx_diag hx,
    done_next_advanced hx (by simp), exec_changesOnly hx⟩
  · rw [hbyte, if_pos rfl, ones_toNat]
  · rw [hbyte, if_neg h12, if_pos rfl, tens_toNat]
  · rw [hbyte, if_neg h02, if_neg h01, if_pos rfl, hundreds_toNat]
  · simp only [List.mem_cons, List.not_mem_nil, or_false, not_or] at ha
    obtain ⟨h0, h1, h2⟩ := ha
    rw [hbyte, if_neg h2, if_neg h1, if_neg h0]

/-! ### Bulk transfers (R185, R186) -/

/-- Settles O41: the last store to an address stands. -/
theorem storeRegisters : Obligations.StoreRegisters := by
  unfold Obligations.StoreRegisters
  intro s x
  have hx : exec (.ldMiVx x) s = done .next (s.storeRegs (x.val + 1)) := rfl
  refine ⟨_, hx, fun j hj hlast => ?_, fun a ha => ?_, ?_, done_next_advanced hx (State.storeRegs_pc _ _),
    exec_changesOnly hx⟩
  · rw [State.advance_byteAt]
    have last : ∀ k, j.val < k → k < x.val + 1 → s.bound (s.indexed k) ≠ s.bound (s.indexed j.val) :=
      fun k hjk hkx => hlast ⟨k, by omega⟩ hjk (Nat.le_of_lt_succ hkx)
    have stored := s.storeRegs_byteAt (x.val + 1) j.val (Nat.lt_succ_of_le hj) last
    rwa [Fin.ofNat_val_eq_self] at stored
  · rw [State.advance_byteAt]
    exact s.storeRegs_byteAt_other _ a fun j hj e => ha (List.mem_map.2 ⟨j, List.mem_range.2 hj, e⟩)
  · rw [State.advance_diag, State.storeRegs_diag]
    rfl

/-- Settles O42: a register is loaded exactly if it is at most `x`. -/
theorem loadRegisters : Obligations.LoadRegisters := by
  unfold Obligations.LoadRegisters
  intro s x
  have hx : exec (.ldVxMi x) s = done .next (s.loadRegs (x.val + 1)) := rfl
  refine ⟨_, hx, fun j hj => (execLdVxMi_reg hx j).trans (if_pos hj),
    fun j hj => (execLdVxMi_reg hx j).trans (if_neg (not_le.2 hj)), ?_,
    done_next_advanced hx (State.loadRegs_pc _ _), exec_changesOnly hx⟩
  rw [State.advance_diag, State.loadRegs_diag]
  rfl

end Sys2Proof.Machine
end

section
/-! PROOFS. The display (spec/44_display.md R200 to R203): what a draw does to each pixel and to the flag, and that a
second draw of the same sprite at the same place undoes the first. -/

namespace Sys2Proof.Machine

/-- Settles O43: the buffer becomes the blank one. -/
theorem clearDisplay : Obligations.ClearDisplay := by
  unfold Obligations.ClearDisplay
  intro s
  have hx : exec .cls s = done .next { s with fb := Fb.blank, redraw := true } := rfl
  refine ⟨_, hx, fun r c => ?_, rfl, State.advance_next_pc_toNat _, exec_changesOnly hx⟩
  rw [State.advance_pixel]
  exact Fb.get_blank r c

/-! ### One draw (R201, R202) -/

section Draw

variable {x y : RegId} {n : Fin 16} {s t : State}

/-- The sprite of a draw, at the place its registers hold, covers a pixel. -/
def DrawCovers (s : State) (x y : RegId) (n : Fin 16) (R : Fin 32) (C : Fin 64) : Prop :=
  s.spriteCovers (s.reg x).toNat (s.reg y).toNat n.val R C

theorem execDrw_pixel_covered (h : execDrw x y n s = .next t) {R : Fin 32} {C : Fin 64} (hc : DrawCovers s x y n R C) :
    t.pixel R C = !s.pixel R C := by
  rw [← done_next h, State.advance_pixel]
  exact (s.drawRows_get _ _ R C n.val n.isLt.le).1 hc

theorem execDrw_pixel_uncovered (h : execDrw x y n s = .next t) {R : Fin 32} {C : Fin 64}
    (hc : ¬DrawCovers s x y n R C) : t.pixel R C = s.pixel R C := by
  rw [← done_next h, State.advance_pixel]
  exact (s.drawRows_get _ _ R C n.val n.isLt.le).2 hc

/-- The flag says whether a covered pixel was on. -/
theorem execDrw_flag (h : execDrw x y n s = .next t) :
    t.reg VF = 1 ↔ ∃ R C, DrawCovers s x y n R C ∧ s.pixel R C = true := by
  rw [done_reg h, State.reg_setReg_same, flagByte_eq_one_iff]
  exact s.drawRows_hit _ _ n.val n.isLt.le

theorem execDrw_diag (h : execDrw x y n s = .next t) : t.diag = s.diag ++ addrDiags (s.span n.val) := by
  rw [← done_next h, State.advance_diag, State.setReg_diag, State.markRedraw_diag, State.drawRows_diag]

theorem execDrw_redraw (h : execDrw x y n s = .next t) : t.redraw = true := by
  rw [← done_next h, State.advance_redraw, State.setReg_redraw, State.markRedraw_redraw]

theorem execDrw_otherRegs (h : execDrw x y n s = .next t) : OtherRegs [VF] s t := fun r hr =>
  exec_reg_other (i := .drw x y n) h (by simp [Instr.writesX]) fun hf => hr (List.mem_singleton.2 hf.1)

end Draw

/-- Settles O44: pixels, flag, diagnostics and frame of one draw, each by its lemma. -/
theorem drawXorsTheSpriteWithWraparound : Obligations.DrawXorsTheSpriteWithWraparound := by
  unfold Obligations.DrawXorsTheSpriteWithWraparound
  intro s x y n
  have hx : exec (.drw x y n) s = done .next _ := rfl
  refine ⟨_, hx, fun R C => execDrw_pixel_covered hx, fun R C => execDrw_pixel_uncovered hx, (execDrw_flag hx).2,
    fun hoff => ?_, execDrw_redraw hx, execDrw_diag hx, execDrw_otherRegs hx, done_next_advanced hx (by simp),
    exec_changesOnly hx⟩
  refine (exec_flag hx rfl).resolve_right fun hon => ?_
  obtain ⟨R, C, hc, hp⟩ := (execDrw_flag hx).1 hon
  exact Bool.false_ne_true ((hoff R C hc).symm.trans hp)

/-! ### Two draws (R203) -/

/-- The covered pixels depend on the bytes at `I` and on the place modulo the size of the buffer. -/
theorem State.spriteCovers_congr {s t : State} {cx cy cx' cy' n : Nat} (hi : t.i = s.i)
    (hbound : ∀ a, t.bound a = s.bound a) (hbyte : ∀ a, t.byteAt a = s.byteAt a) (hx : cx' % 64 = cx % 64)
    (hy : cy' % 32 = cy % 32) (R : Fin 32) (C : Fin 64) :
    t.spriteCovers cx' cy' n R C ↔ s.spriteCovers cx cy n R C := by
  have row : ∀ r, (cy' + r) % 32 = (cy + r) % 32 := fun r => Nat.ModEq.add_right r hy
  have col : ∀ c, (cx' + c) % 64 = (cx + c) % 64 := fun c => Nat.ModEq.add_right c hx
  simp only [State.spriteCovers, State.spritePixel, hi, hbound, hbyte, row, col]

/-- A set bit of the sprite lands somewhere. -/
theorem State.exists_spriteCovers_iff (s : State) (cx cy n : Nat) :
    (∃ R C, s.spriteCovers cx cy n R C) ↔ ∃ r c, r < n ∧ c < 8 ∧ s.spritePixel r c := by
  constructor
  · rintro ⟨R, C, r, c, hr, hc, hp, -, -⟩
    exact ⟨r, c, hr, hc, hp⟩
  · rintro ⟨r, c, hr, hc, hp⟩
    exact ⟨spriteRow cy r, spriteCol cx c, r, c, hr, hc, hp, by simp [spriteRow], by simp [spriteCol]⟩

section TwoDraws

variable {s t u : State} {x y x' y' : RegId} {n : Fin 16}

/-- A draw leaves the sprite where it was, so that a second draw at the same place covers the same pixels. -/
theorem drawCovers_after_draw (h : execDrw x y n s = .next t) (hx : (t.reg x').toNat % 64 = (s.reg x).toNat % 64)
    (hy : (t.reg y').toNat % 32 = (s.reg y).toNat % 32) (R : Fin 32) (C : Fin 64) :
    DrawCovers t x' y' n R C ↔ DrawCovers s x y n R C := by
  have frame : ChangesOnly (Instr.drw x y n).parts s t := exec_changesOnly (i := .drw x y n) h
  have hcfg : t.cfg = s.cfg := frame .config (by simp [Instr.parts])
  exact State.spriteCovers_congr (frame .index (by simp [Instr.parts]))
    (fun a => by rw [State.bound, State.bound, hcfg]) (frame .memory (by simp [Instr.parts])) hx hy R C

/-- A pixel that both draws cover is complemented back. -/
theorem execDrw_twice_pixel (h : execDrw x y n s = .next t) (hu : execDrw x' y' n t = .next u)
    (same : ∀ R C, DrawCovers t x' y' n R C ↔ DrawCovers s x y n R C) (R : Fin 32) (C : Fin 64) :
    u.pixel R C = s.pixel R C := by
  by_cases hc : DrawCovers s x y n R C
  · rw [execDrw_pixel_covered hu ((same R C).2 hc), execDrw_pixel_covered h hc, Bool.not_not]
  · rw [execDrw_pixel_uncovered hu (hc ∘ (same R C).1), execDrw_pixel_uncovered h hc]

/-- A covered pixel that the second draw finds on was off before the first. -/
theorem execDrw_twice_flag (h : execDrw x y n s = .next t) (hu : execDrw x' y' n t = .next u)
    (same : ∀ R C, DrawCovers t x' y' n R C ↔ DrawCovers s x y n R C) :
    u.reg VF = 1 ↔ ∃ R C, DrawCovers s x y n R C ∧ s.pixel R C = false := by
  rw [execDrw_flag hu]
  refine exists_congr fun R => exists_congr fun C => ?_
  rw [same]
  refine and_congr_right fun hc => ?_
  rw [execDrw_pixel_covered h hc, Bool.not_eq_true']

end TwoDraws

/-- Settles O45: both draws cover the same pixels; on a clear place every covered pixel was off. -/
theorem drawingTwiceRestoresTheBuffer : Obligations.DrawingTwiceRestoresTheBuffer := by
  unfold Obligations.DrawingTwiceRestoresTheBuffer
  intro s t x y x' y' n h hx hy
  have hu : exec (.drw x' y' n) t = done .next _ := rfl
  have same := drawCovers_after_draw h hx hy
  have flag := execDrw_twice_flag h hu same
  refine ⟨_, hu, execDrw_twice_pixel h hu same, exec_flag hu rfl, flag, fun hclear => flag.trans ?_⟩
  rw [← s.exists_spriteCovers_iff (s.reg x).toNat (s.reg y).toNat]
  exact exists_congr fun R => exists_congr fun C => and_iff_left_of_imp (hclear R C)

end Sys2Proof.Machine
end

section
/-! PROOFS. Memory (spec/20_memory.md R50 to R61): what an address reaches, that the canonical form is canonical, that
what is stored at `pc` is fetched, and which instructions reach memory. -/

namespace Sys2Proof.Machine

/-! ### Bounded addresses (R52) -/

theorem State.noteAddr_of_lt (s : State) {a : Nat} (h : a < memSize) : s.noteAddr a = s := if_pos h

theorem State.noteAddr_of_ge (s : State) {a : Nat} (h : memSize ≤ a) :
    s.noteAddr a = s.raise (.addressOutOfRange a) := if_neg (not_lt.2 h)

theorem boundAddr_clamp {a : Nat} (h : memSize ≤ a) : boundAddr .clamp a = 0xFFF := if_neg (not_lt.2 h)

theorem boundAddr_mask {a : Nat} (h : memSize ≤ a) : boundAddr .mask a = a % memSize := if_neg (not_lt.2 h)

theorem State.bound_le_FFF (s : State) (a : Nat) : s.bound a ≤ 0xFFF := Nat.le_of_lt_succ (s.bound_lt a)

/-- Settles O9: one lemma per side of 0xFFF and policy. -/
theorem boundClampsOrMasks : Obligations.BoundClampsOrMasks := by
  unfold Obligations.BoundClampsOrMasks
  refine fun s a => ⟨s.bound_le_FFF a, fun h => ?_, fun h => ⟨s.noteAddr_of_ge h, fun hp => ?_, fun hp => ?_⟩⟩
  · have h : a < memSize := Nat.lt_succ_of_le h
    exact ⟨boundAddr_of_lt _ h, s.noteAddr_of_lt h⟩
  · rw [State.bound, hp, boundAddr_clamp h]
  · rw [State.bound, hp, boundAddr_mask h]

/-! ### The canonical form (log 5) -/

theorem Memory.mem_of_lookup {m : Memory} {a : Nat} {v : Byte} (h : Memory.lookup m a = some v) : (a, v) ∈ m := by
  induction m with
  | nil => cases h
  | cons c m ih =>
    obtain ⟨k, w⟩ := c
    rw [Memory.lookup] at h
    split at h
    · rename_i hk
      obtain rfl := Option.some.inj h
      exact hk ▸ List.mem_cons_self
    · exact List.mem_cons_of_mem _ (ih h)

theorem Memory.lookup_of_mem {m : Memory} (hs : m.Pairwise (fun c d => c.1 < d.1)) {a : Nat} {v : Byte}
    (h : (a, v) ∈ m) : Memory.lookup m a = some v := by
  induction m with
  | nil => cases h
  | cons c m ih =>
    obtain ⟨k, w⟩ := c
    obtain ⟨hlt, hs⟩ := List.pairwise_cons.1 hs
    rw [Memory.lookup]
    rcases List.mem_cons.1 h with e | h
    · obtain ⟨rfl, rfl⟩ := Prod.mk.inj e
      exact if_pos rfl
    · rw [if_neg (hlt _ h).ne', ih hs h]

/-- What a canonical memory lists is what it reads other than the background. -/
theorem Memory.mem_iff_read {font : Vector Byte 80} {m : Memory} (h : Memory.wf font m) (a : Nat) (v : Byte) :
    (a, v) ∈ m ↔ Memory.read font m a = v ∧ v ≠ background font a := by
  obtain ⟨hs, hl⟩ := h
  constructor
  · intro hm
    rw [Memory.read, Memory.lookup_of_mem hs hm]
    exact ⟨rfl, (hl _ hm).2⟩
  · rintro ⟨hr, hv⟩
    rw [Memory.read] at hr
    cases hm : Memory.lookup m a with
    | none =>
      rw [hm] at hr
      exact absurd hr.symm hv
    | some w =>
      rw [hm] at hr
      exact Memory.mem_of_lookup (hr ▸ hm)

/-- Settles O11: two such lists have the same members, and a rising list is determined by its members. -/
theorem canonicalMemoriesAreDetermined : Obligations.CanonicalMemoriesAreDetermined := by
  unfold Obligations.CanonicalMemoriesAreDetermined
  intro font m m' h h' hread
  have rising : Std.Irrefl (fun c d : Host.Cell => c.1 < d.1) := ⟨fun c => lt_irrefl c.1⟩
  have rising' : Std.Antisymm (fun c d : Host.Cell => c.1 < d.1) := ⟨fun c d hcd hdc => absurd hcd hdc.asymm⟩
  refine List.Pairwise.eq_of_mem_iff h.1 h'.1 fun c => ?_
  rw [Memory.mem_iff_read h c.1 c.2, Memory.mem_iff_read h' c.1 c.2, hread]

/-! ### What is stored at `pc` is fetched (R61) -/

/-- `withFetchWord` first sees to it that the two fetched bytes lie apart (log 7). -/
theorem State.fetchable_bound_ne (s : State) :
    s.fetchable.bound s.fetchable.pc.toNat ≠ s.fetchable.bound (s.fetchable.pc.toNat + 1) := by
  unfold State.fetchable
  split
  · change boundAddr _ 0x200 ≠ boundAddr _ 0x201
    rw [boundAddr_of_lt _ (by decide), boundAddr_of_lt _ (by decide)]
    decide
  · assumption

theorem State.fetchable_halted (s : State) : s.fetchable.halted = false := by
  unfold State.fetchable
  split <;> rfl

/-- A word placed at `pc` is the one that is fetched, where its two bytes lie apart. -/
theorem State.placeWord_fetchWord (s : State) (w : Word) (h : s.bound s.pc.toNat ≠ s.bound (s.pc.toNat + 1)) :
    (s.placeWord w).fetchWord = w := by
  simp [State.fetchWord, State.placeWord, State.byteAt_place, h]

/-- Settles O13: the second byte does not overwrite the first. -/
theorem storedBytesAreFetched : Obligations.StoredBytesAreFetched := by
  unfold Obligations.StoredBytesAreFetched
  refine ⟨fun s hi lo h => ?_, fun s nbits w => ⟨s.fetchable_halted, ?_⟩⟩
  · rw [State.clearDiag_fetch_opc]
    simp [State.fetchWord, State.byteAt_memWrite, h]
  · rw [State.clearDiag_fetch_opc]
    exact State.placeWord_fetchWord _ _ s.fetchable_bound_ne

/-! ### Who reaches memory (R50) -/

/-- An effect that carries the memory along ends, under any advance, in a state that does. -/
theorem done_withMem {f : Flow} {u u' t : State} {m : Memory} (h : done f u = .next t)
    (hu : u' = { u with mem := m }) : done f u' = .next { t with mem := m } := by
  obtain rfl := done_next h
  rw [hu, done, State.advance_withMem]

theorem State.stackFail_withMem (s : State) (d : Diag) (m : Memory) :
    State.stackFail { s with mem := m } d = { s.stackFail d with mem := m } :=
  State.advance_withMem (s.raise d) _ m

theorem execRet_withMem {s t : State} (m : Memory) (h : execRet s = .next t) :
    execRet { s with mem := m } = .next { t with mem := m } := by
  by_cases hs : 0 < s.sp.val
  · rw [execRet_of_entry s hs] at h
    rw [execRet_of_entry { s with mem := m } hs]
    exact done_withMem h rfl
  · have hs : s.sp.val = 0 := by omega
    rw [execRet_of_empty s hs] at h
    rw [execRet_of_empty { s with mem := m } hs, State.stackFail_withMem, Host.Outcome.next.inj h]

theorem execCall_withMem {nnn : BitVec 12} {s t : State} (m : Memory) (h : execCall nnn s = .next t) :
    execCall nnn { s with mem := m } = .next { t with mem := m } := by
  by_cases hs : s.sp.val < 16
  · rw [execCall_of_room nnn s hs] at h
    rw [execCall_of_room nnn { s with mem := m } hs]
    exact done_withMem h rfl
  · have hs : s.sp.val = 16 := by omega
    rw [execCall_of_full nnn s hs] at h
    rw [execCall_of_full nnn { s with mem := m } hs, State.stackFail_withMem, Host.Outcome.next.inj h]

theorem execLdVxK_withMem {x : RegId} {s t : State} (m : Memory) (h : execLdVxK x s = .next t) :
    execLdVxK x { s with mem := m } = .next { t with mem := m } := by
  cases hk : s.leastPressed with
  | some k =>
    rw [execLdVxK_of_pressed x s hk] at h
    rw [execLdVxK_of_pressed x { s with mem := m } hk]
    exact done_withMem h rfl
  | none =>
    rw [execLdVxK_of_none x s hk] at h
    rw [execLdVxK_of_none x { s with mem := m } hk]
    exact done_withMem h rfl

/-- Every instruction but the four that reach memory does the same whatever it holds, and carries it along. -/
theorem exec_withMem {i : Instr} {s t : State} (m : Memory) (hi : i.reachesMemory = false)
    (h : exec i s = .next t) : exec i { s with mem := m } = .next { t with mem := m } := by
  cases i
  case drw | ldBVx | ldMiVx | ldVxMi => cases hi
  case ret => exact execRet_withMem m h
  case call => exact execCall_withMem m h
  case ldVxK => exact execLdVxK_withMem m h
  all_goals exact done_withMem h rfl

/-- What carries along any memory carries along the one it was given. -/
theorem exec_mem {i : Instr} {s t : State} (hi : i.reachesMemory = false) (h : exec i s = .next t) :
    t.mem = s.mem := by
  have same : t = { t with mem := s.mem } := Host.Outcome.next.inj (h.symm.trans (exec_withMem s.mem hi h))
  rw [same]

theorem execDrw_mem {x y : RegId} {n : Fin 16} {s t : State} (h : execDrw x y n s = .next t) : t.mem = s.mem := by
  rw [← done_next h, State.advance_mem, State.setReg_mem, State.markRedraw_mem, State.drawRows_mem]

theorem execLdVxMi_mem {x : RegId} {s t : State} (h : execLdVxMi x s = .next t) : t.mem = s.mem := by
  rw [← done_next h, State.advance_mem, State.loadRegs_mem]

/-- Settles O57, clause by clause. -/
theorem onlyFourInstructionsReachMemory : Obligations.OnlyFourInstructionsReachMemory := by
  unfold Obligations.OnlyFourInstructionsReachMemory
  exact ⟨State.bound_le_FFF, fun i s t m hi h => ⟨exec_mem hi h, exec_withMem m hi h⟩,
    fun x y n s t h => h.elim execDrw_mem execLdVxMi_mem, fun s => ⟨s.fetch_opc, s.fetch_mem⟩,
    State.memWrite_changesOnly⟩

end Sys2Proof.Machine
end

section
/-! PROOFS. The cycle (spec/40_engine.md R100, R101, R110, R111; spec/60_exceptions.md R242): it completes from every
state, ticks unless it halts, and halts only by a stack error. -/

namespace Sys2Proof.Machine

/-! ### What every cycle is -/

/-- Every instruction answers a next state. -/
theorem exec_next (i : Instr) (s : State) : ∃ t, exec i s = .next t := by
  rcases exec_cases i s with ⟨f, u, h, -⟩ | ⟨-, -, h⟩ | ⟨-, -, h⟩ <;> exact ⟨_, h⟩

/-- Settles O50: each of the three kinds of cycle answers a next state. -/
theorem everyCycleCompletes : Obligations.EveryCycleCompletes := by
  unfold Obligations.EveryCycleCompletes
  intro s
  rcases step_cases s with ⟨-, h⟩ | ⟨-, i, -, h⟩ | ⟨-, w, -, h⟩
  · exact ⟨_, h⟩
  · obtain ⟨u, hu⟩ := exec_next i s.clearDiag.fetch
    exact ⟨u.endCycle, by rw [h, hu, endOutcome_next]⟩
  · exact ⟨_, h⟩

/-- Settles O14: the end of a cycle is the tick, unless the instruction halted the engine. -/
theorem stepRunsTheDecodedInstruction : Obligations.StepRunsTheDecodedInstruction := by
  unfold Obligations.StepRunsTheDecodedInstruction
  refine fun s t i hs hd hx => ⟨?_, s.clearDiag_fetch_opc⟩
  rw [step_decoded hs hd, hx, endOutcome_next, State.endCycle]

/-- Settles O16: the halted cycle clears `DIAG` and does nothing else. -/
theorem haltedCycleDoesNothing : Obligations.HaltedCycleDoesNothing := by
  unfold Obligations.HaltedCycleDoesNothing
  exact fun s h => ⟨_, step_halted h, rfl, s.clearDiag_changesOnly⟩

/-! ### Frames of the parts of a cycle -/

/-- The start of a cycle, up to the instruction. -/
theorem State.clearDiag_fetch_changesOnly (s : State) : ChangesOnly [.latch, .diag] s s.clearDiag.fetch :=
  (s.clearDiag_changesOnly.trans s.clearDiag.fetch_changesOnly).mono (by simp)

theorem State.unrecognized_changesOnly (s : State) (w : Word) : ChangesOnly [.pc, .diag] s (s.unrecognized w) :=
  ((s.raise_changesOnly _).trans (State.advance_changesOnly _ (by simp))).mono (by simp)

/-! ### An unrecognized word (R110) -/

/-- The decoder names the word it was given. -/
theorem eq_of_decode_unrecognized {b : BulkTransfer} {w w' : Word} (h : decode b w = .unrecognized w') : w' = w :=
  ((unrecognizedWordsAreExactlyThese b w w').1 h).1

/-- The cycle of an unrecognized word, from its start to its tick. -/
theorem step_of_unrecognized {s : State} {w : Word} (hs : s.halted = false)
    (hd : decode s.cfg.bulk s.fetchWord = .unrecognized w) :
    step s = .next (s.clearDiag.fetch.unrecognized s.fetchWord).tick := by
  obtain rfl := eq_of_decode_unrecognized hd
  rw [step_unrecognized hs hd, State.endCycle_of_running]
  rw [State.unrecognized, State.advance_next_halted, State.raise_halted, State.fetch_halted, State.clearDiag_halted, hs]

/-- Settles O15: the record, the advance and the tick, each on what the fetch left. -/
theorem unrecognizedOpcodeIsALoggedNoOp : Obligations.UnrecognizedOpcodeIsALoggedNoOp := by
  unfold Obligations.UnrecognizedOpcodeIsALoggedNoOp
  intro s w hs hd
  refine ⟨_, step_of_unrecognized hs hd, ?_, ?_, ?_, ?_, ?_, ?_, ?_⟩
  · rw [Advanced, State.tick_pc, State.unrecognized, State.advance_next_pc_toNat, State.raise_pc, State.fetch_pc,
      State.clearDiag_pc]
  · rw [State.tick_diag, State.unrecognized, State.advance_diag, State.raise_diag, State.clearDiag_fetch_diag]
  · rw [State.tick_opc, State.unrecognized, State.advance_opc, State.raise_opc, State.clearDiag_fetch_opc]
  · simp [State.tick_dt_toNat, State.unrecognized]
  · simp [State.tick_st_toNat, State.unrecognized]
  · simp [State.tick_tone, State.unrecognized]
  · exact ((s.clearDiag_fetch_changesOnly.trans (State.unrecognized_changesOnly _ _)).trans
      (State.tick_changesOnly _)).mono (by simp)

/-! ### The tick (R111) -/

/-- A cycle that does not halt ticks a state that has the timers of its start, but for a timer that the decoded
instruction sets. -/
theorem step_ticks {s t : State} (hs : s.halted = false) (h : step s = .next t) (ht : t.halted = false) :
    ∃ u : State, t = u.tick ∧
      ((∀ x, decode s.cfg.bulk s.fetchWord ≠ .instr (.ldDtVx x)) → u.dt = s.dt) ∧
      ((∀ x, decode s.cfg.bulk s.fetchWord ≠ .instr (.ldStVx x)) → u.st = s.st) ∧ u.tone = s.tone := by
  have start := s.clearDiag_fetch_changesOnly
  rcases step_next_cases h with ⟨hs', -⟩ | ⟨-, i, u, hd, hx, rfl⟩ | ⟨-, w, -, rfl⟩
  · exact absurd (hs.symm.trans hs') Bool.false_ne_true
  · have frame := start.trans (exec_changesOnly hx)
    obtain ⟨htone, -, -, -⟩ := not_mem_parts i
    refine ⟨u, State.endCycle_of_running (by simpa using ht), fun hne => frame .delay ?_, fun hne => frame .sound ?_,
      frame .tone (by simpa using htone)⟩
    · intro hm
      obtain ⟨x, rfl⟩ := delay_mem_parts (by simpa using hm)
      exact hne x hd
    · intro hm
      obtain ⟨x, rfl⟩ := sound_mem_parts (by simpa using hm)
      exact hne x hd
  · have frame := start.trans (State.unrecognized_changesOnly _ w)
    exact ⟨_, State.endCycle_of_running (by simpa using ht), fun _ => frame .delay (by simp),
      fun _ => frame .sound (by simp), frame .tone (by simp)⟩

/-- Settles O18: `step_ticks` and what a tick does to each timer. -/
theorem everyCycleTicks : Obligations.EveryCycleTicks := by
  unfold Obligations.EveryCycleTicks
  intro s t hs h ht
  obtain ⟨u, rfl, hdt, hst, htone⟩ := step_ticks hs h ht
  refine ⟨fun hne => ?_, fun hne => ⟨?_, ?_⟩⟩
  · rw [State.tick_dt_toNat, hdt hne]
  · rw [State.tick_st_toNat, hst hne]
  · rw [State.tick_tone, hst hne, htone]

/-! ### The halt (R242) -/

/-- An instruction that halts a running engine is a stack error under the policy `HALT`, and ends in its record. -/
theorem exec_halts {i : Instr} {s t : State} (hs : s.halted = false) (h : exec i s = .next t) (ht : t.halted = true) :
    s.cfg.stackPolicy = .halt ∧ ∃ d, t = s.stackFail d ∧
      ((i = .ret ∧ s.sp.val = 0 ∧ d = .stackUnderflow s.pc) ∨
        ((∃ nnn, i = .call nnn) ∧ s.sp.val = 16 ∧ d = .stackOverflow s.pc)) := by
  have fails : ∀ {d}, t = s.stackFail d → s.cfg.stackPolicy = .halt := by
    rintro d rfl
    cases hp : s.cfg.stackPolicy
    · rfl
    · rw [State.stackFail_of_ignore d hp, State.advance_next_halted, State.raise_halted, hs] at ht
      cases ht
  rcases exec_cases i s with ⟨f, u, hx, hf, hu, -⟩ | ⟨hi, hsp, hx⟩ | ⟨hi, hsp, hx⟩
  · obtain rfl := Host.Outcome.next.inj (hx.symm.trans h)
    simp [State.advance_halted, hu, hs, hf] at ht
  · obtain rfl := Host.Outcome.next.inj (hx.symm.trans h)
    exact ⟨fails rfl, _, rfl, .inl ⟨hi, hsp, rfl⟩⟩
  · obtain rfl := Host.Outcome.next.inj (hx.symm.trans h)
    exact ⟨fails rfl, _, rfl, .inr ⟨hi, hsp, rfl⟩⟩

/-- A cycle that halts a running engine decodes an instruction that does, and does not tick. -/
theorem step_halts {s t : State} (hs : s.halted = false) (h : step s = .next t) (ht : t.halted = true) :
    ∃ i, decode s.cfg.bulk s.fetchWord = .instr i ∧ exec i s.clearDiag.fetch = .next t := by
  rcases step_next_cases h with ⟨hs', -⟩ | ⟨-, i, u, hd, hx, rfl⟩ | ⟨-, w, -, rfl⟩
  · exact absurd (hs.symm.trans hs') Bool.false_ne_true
  · rw [State.endCycle_halted] at ht
    exact ⟨i, hd, by rw [State.endCycle_of_halted ht, hx]⟩
  · rw [State.endCycle_halted, State.unrecognized, State.advance_next_halted, State.raise_halted, State.fetch_halted,
      State.clearDiag_halted, hs] at ht
    cases ht

/-- Settles O54: the halting instruction is a stack error on the fetched state, which changes `HALTED` and `DIAG`. -/
theorem haltIsAPreciseStackError : Obligations.HaltIsAPreciseStackError := by
  unfold Obligations.HaltIsAPreciseStackError
  intro s t hs h ht
  obtain ⟨i, hd, hx⟩ := step_halts hs h ht
  obtain ⟨hp, d, rfl, herr⟩ := exec_halts (by simpa using hs) hx ht
  rw [State.fetch_cfg, State.clearDiag_cfg] at hp
  simp only [State.fetch_sp, State.clearDiag_sp, State.fetch_pc, State.clearDiag_pc] at herr
  have hdiag : (s.clearDiag.fetch.stackFail d).diag = addrDiags [s.pc.toNat, s.pc.toNat + 1] ++ [d] := by
    rw [State.stackFail_diag, State.clearDiag_fetch_diag]
  refine ⟨hp, ?_, ?_, ?_⟩
  · exact (s.clearDiag_fetch_changesOnly.trans (State.stackFail_halt_changesOnly d (by simpa using hp))).mono (by simp)
  · exact (State.advance_opc _ _).trans s.clearDiag_fetch_opc
  · rw [hd, hdiag]
    obtain ⟨rfl, hsp, rfl⟩ | ⟨⟨nnn, rfl⟩, hsp, rfl⟩ := herr
    · exact .inl ⟨rfl, hsp, rfl⟩
    · exact .inr ⟨⟨nnn, rfl⟩, hsp, rfl⟩

end Sys2Proof.Machine
end

section
/-! PROOFS. Setting the timers and waiting for a key (spec/45_timers_input.md R221, R222, R226). -/

namespace Sys2Proof.Machine

/-! ### Setting the timers, and the tick of the same cycle (R221, R222) -/

/-- A running engine that decodes `Fx15` sets `DT`, advances by 2 and ticks. -/
theorem step_ldDtVx {s : State} {x : RegId} (hs : s.halted = false)
    (hd : decode s.cfg.bulk s.fetchWord = .instr (.ldDtVx x)) :
    step s = .next (State.advance { s.clearDiag.fetch with dt := s.clearDiag.fetch.reg x } .next).tick :=
  step_of_exec_running hs hd rfl (by simp [hs])

/-- A running engine that decodes `Fx18` sets `ST`, advances by 2 and ticks. -/
theorem step_ldStVx {s : State} {x : RegId} (hs : s.halted = false)
    (hd : decode s.cfg.bulk s.fetchWord = .instr (.ldStVx x)) :
    step s = .next (State.advance { s.clearDiag.fetch with st := s.clearDiag.fetch.reg x } .next).tick :=
  step_of_exec_running hs hd rfl (by simp [hs])

/-- Settles O47: each instruction writes its timer, and its cycle's tick takes 1 off what it wrote. -/
theorem setTimers : Obligations.SetTimers := by
  unfold Obligations.SetTimers
  refine ⟨fun s x => ⟨?_, ?_⟩, fun s x hs => ⟨fun hd => ⟨_, step_ldDtVx hs hd, ?_⟩, fun hd =>
    ⟨_, step_ldStVx hs hd, ?_, ?_⟩⟩⟩
  · exact ⟨_, rfl, rfl, State.advance_next_pc_toNat _, exec_changesOnly (i := .ldDtVx x) rfl⟩
  · exact ⟨_, rfl, rfl, State.advance_next_pc_toNat _, exec_changesOnly (i := .ldStVx x) rfl⟩
  · simp [State.tick_dt_toNat]
  · simp [State.tick_st_toNat]
  · simp [State.tick_tone]

/-! ### Waiting for a key (R226) -/

theorem trunc8_key_toNat (k : RegId) : (trunc8 k.val).toNat = k.val :=
  (BitVec.toNat_ofNat _ _).trans (Nat.mod_eq_of_lt (k.isLt.trans (by decide)))

/-- Settles O48: with no key pressed the wait holds `pc`. -/
theorem waitForKey : Obligations.WaitForKey := by
  unfold Obligations.WaitForKey
  refine fun s x => ⟨fun k hk hleast => ?_, fun hnone => ?_⟩
  · have hx : exec (.ldVxK x) s = _ := execLdVxK_of_pressed x s (s.leastPressed_eq k hk hleast)
    refine ⟨_, hx, ?_, rfl, execLdVxK_otherRegs hx, State.advance_next_pc_toNat _, execLdVxK_changesOnly hx⟩
    rw [State.advance_reg]
    exact (congrArg BitVec.toNat (s.reg_setReg_same x _)).trans (trunc8_key_toNat k)
  · exact ⟨_, execLdVxK_of_none x s (s.leastPressed_none.2 hnone), rfl, changesOnly_keywait s true⟩

end Sys2Proof.Machine
end

section
/-! PROOFS. What every cycle and every host action keep (spec/10_state.md R33, R41, spec/20_memory.md R51,
spec/60_exceptions.md R243, R246, R252), and the ports of R40. -/

namespace Sys2Proof.Machine

/-! ### Reset (R41) -/

/-- Settles O2: `initialize([])` loads nothing, and the glyphs are read off the background. -/
theorem resetIsInitializeOfNothing : Obligations.ResetIsInitializeOfNothing := by
  unfold Obligations.ResetIsInitializeOfNothing
  exact ⟨rfl, rfl, rfl, rfl, by decide⟩

/-! ### The memory stays canonical (log 5) -/

/-- A write under a configuration with this font. -/
theorem State.memWrite_wf_font {font : Vector Byte 80} {s : State} (hf : s.cfg.font = font)
    (hm : Memory.wf font s.mem) (a : Nat) (v : Byte) : Memory.wf font (s.memWrite a v).mem :=
  hf ▸ s.memWrite_wf a v (hf.symm ▸ hm)

theorem execLdBVx_wf {x : RegId} {s t : State} (hm : Memory.wf s.cfg.font s.mem) (h : execLdBVx x s = .next t) :
    Memory.wf s.cfg.font t.mem := by
  rw [← done_next h, State.advance_mem]
  exact State.memWrite_wf_font (by simp)
    (State.memWrite_wf_font (by simp) (State.memWrite_wf_font rfl hm _ _) _ _) _ _

theorem execLdMiVx_wf {x : RegId} {s t : State} (hm : Memory.wf s.cfg.font s.mem) (h : execLdMiVx x s = .next t) :
    Memory.wf s.cfg.font t.mem := by
  rw [← done_next h, State.advance_mem]
  exact s.storeRegs_wf _ hm

/-- Of the instructions that reach memory, two only read it and two write it byte by byte. -/
theorem exec_wf {i : Instr} {s t : State} (hm : Memory.wf s.cfg.font s.mem) (h : exec i s = .next t) :
    Memory.wf s.cfg.font t.mem := by
  cases hi : i.reachesMemory
  · rwa [exec_mem hi h]
  · cases i
    case drw => rwa [execDrw_mem h]
    case ldVxMi => rwa [execLdVxMi_mem h]
    case ldBVx => exact execLdBVx_wf hm h
    case ldMiVx => exact execLdMiVx_wf hm h
    all_goals cases hi

/-! ### The shape of the diagnostics (R243) -/

/-- What an instruction reports: the accesses that were out of range, or one record of a stack error. -/
theorem exec_diag {i : Instr} {s t : State} (h : exec i s = .next t) :
    (∃ as, t.diag = s.diag ++ addrDiags as) ∨ ∃ d, t.diag = s.diag ++ [d] := by
  have quiet : ∀ {u : State}, u.diag = s.diag → ∃ as, u.diag = s.diag ++ addrDiags as := fun hu => ⟨[], by simp [hu]⟩
  cases i
  case ret =>
    by_cases hs : 0 < s.sp.val
    · exact .inl (quiet (execRet_entry_changesOnly hs h .diag (by simp)))
    · obtain rfl := Host.Outcome.next.inj ((execRet_of_empty s (by omega)).symm.trans h)
      exact .inr ⟨_, s.stackFail_diag _⟩
  case call nnn =>
    by_cases hs : s.sp.val < 16
    · exact .inl (quiet (execCall_room_changesOnly hs h .diag (by simp)))
    · obtain rfl := Host.Outcome.next.inj ((execCall_of_full nnn s (by omega)).symm.trans h)
      exact .inr ⟨_, s.stackFail_diag _⟩
  case drw => exact .inl ⟨_, execDrw_diag h⟩
  case ldBVx => exact .inl ⟨_, execLdBVx_diag h⟩
  case ldMiVx => exact .inl ⟨_, done_next h ▸ (State.advance_diag _ _).trans (s.storeRegs_diag _)⟩
  case ldVxMi => exact .inl ⟨_, done_next h ▸ (State.advance_diag _ _).trans (s.loadRegs_diag _)⟩
  all_goals exact .inl (quiet (exec_changesOnly h .diag (by simp [Instr.parts])))

theorem diagShape_nil : DiagShape [] := ⟨[], [], rfl, by simp, by simp⟩

theorem diagShape_addrDiags (as : List Nat) : DiagShape (addrDiags as) :=
  ⟨addrDiags as, [], by simp, fun _ => isAddress_of_mem_addrDiags, by simp⟩

theorem diagShape_addrDiags_concat (as : List Nat) (d : Diag) : DiagShape (addrDiags as ++ [d]) :=
  ⟨addrDiags as, [d], rfl, fun _ => isAddress_of_mem_addrDiags, by simp⟩

/-- The fetch reports addresses only, so that a cycle's other record, if any, is the last. -/
theorem exec_diagShape {i : Instr} {s t : State} {as : List Nat} (hs : s.diag = addrDiags as)
    (h : exec i s = .next t) : DiagShape t.diag := by
  rcases exec_diag h with ⟨bs, hd⟩ | ⟨d, hd⟩
  · rw [hd, hs, ← addrDiags_append]
    exact diagShape_addrDiags _
  · rw [hd, hs]
    exact diagShape_addrDiags_concat as d

/-! ### The invariant (R252) -/

/-- The invariant speaks of the memory, the diagnostics, `HALTED` and the configuration only. -/
theorem State.Inv.congr {s t : State} (h : s.Inv) (hm : t.mem = s.mem) (hd : t.diag = s.diag)
    (hh : t.halted = s.halted) (hc : t.cfg = s.cfg) : t.Inv :=
  ⟨by rw [hm, hc]; exact h.memory, by rw [hd]; exact h.diag, by rw [hh, hc]; exact h.halted⟩

theorem State.Inv.clearDiag {s : State} (h : s.Inv) : s.clearDiag.Inv := ⟨h.memory, diagShape_nil, h.halted⟩

theorem State.Inv.fetch {s : State} (h : s.Inv) (hd : s.diag = []) : s.fetch.Inv where
  memory := by
    rw [State.fetch_mem, State.fetch_cfg]
    exact h.memory
  diag := by
    rw [State.fetch_diag, hd]
    exact diagShape_addrDiags _
  halted := by
    rw [State.fetch_halted, State.fetch_cfg]
    exact h.halted

theorem exec_inv {i : Instr} {s t : State} {as : List Nat} (hinv : s.Inv) (hs : s.halted = false)
    (hd : s.diag = addrDiags as) (h : exec i s = .next t) : t.Inv where
  memory := by
    rw [exec_cfg h]
    exact exec_wf hinv.memory h
  diag := exec_diagShape hd h
  halted := fun ht => by
    rw [exec_cfg h]
    exact (exec_halts hs h ht).1

theorem State.Inv.unrecognized {s : State} {as : List Nat} (h : s.Inv) (hd : s.diag = addrDiags as) (w : Word) :
    (s.unrecognized w).Inv where
  memory := h.memory
  diag := by
    rw [State.unrecognized, State.advance_diag, State.raise_diag, hd]
    exact diagShape_addrDiags_concat as _
  halted := h.halted

theorem State.Inv.endCycle {s : State} (h : s.Inv) : s.endCycle.Inv :=
  h.congr s.endCycle_mem s.endCycle_diag s.endCycle_halted s.endCycle_cfg

/-- Settles O52: each part of a cycle keeps the invariant. -/
theorem stepKeepsTheInvariant : Obligations.StepKeepsTheInvariant := by
  unfold Obligations.StepKeepsTheInvariant
  intro s t hinv h
  have start : s.clearDiag.fetch.Inv := hinv.clearDiag.fetch rfl
  rcases step_next_cases h with ⟨-, rfl⟩ | ⟨hs, i, u, -, hx, rfl⟩ | ⟨-, w, -, rfl⟩
  · exact hinv.clearDiag
  · exact (exec_inv start (by simpa using hs) s.clearDiag_fetch_diag hx).endCycle
  · exact (start.unrecognized s.clearDiag_fetch_diag w).endCycle

theorem State.initialized_inv (s : State) {P : List Byte} (hP : P.length ≤ 3584) : (s.initialized P).Inv where
  memory := Memory.wf_load P (Memory.wf_nil _) (by simp only [programBase, memSize]; omega)
  diag := diagShape_nil
  halted := by
    intro h
    cases h

/-- What `KEY_IN` answers for a key index of the keypad; it answers no other. -/
theorem portKeyIn_next {s t : State} {k : Nat} {p : Bool} (h : portKeyIn k p s = .next t) :
    ∃ hk : k < 16, t = { s with key := s.key.set k p hk } := by
  by_cases hk : k < 16
  · exact ⟨hk, Host.Outcome.next.inj (h.symm.trans (portKeyIn_of_lt p hk))⟩
  · cases (dif_neg hk).symm.trans h

/-- Settles O53: a cycle is O52, `initialize` starts anew, and the other actions are outside the invariant's parts. -/
theorem hostActionsKeepTheInvariant : Obligations.HostActionsKeepTheInvariant := by
  unfold Obligations.HostActionsKeepTheInvariant
  intro a s t hinv h
  cases a with
  | init P =>
    obtain ⟨hP, rfl⟩ := portInit_next h
    exact s.initialized_inv hP
  | step => exact stepKeepsTheInvariant s t hinv h
  | redrawAck | toneAck =>
    obtain rfl := Host.Outcome.next.inj h
    exact hinv.congr rfl rfl rfl rfl
  | keyIn k p =>
    obtain ⟨hk, rfl⟩ := portKeyIn_next h
    exact hinv.congr rfl rfl rfl rfl

/-! ### The wait for a key (R33) -/

/-- What the wait invariant speaks of. -/
theorem State.WaitInv.congr {s t : State} (h : s.WaitInv) (hk : t.keywait = s.keywait) (hw : t.fetchWord = s.fetchWord)
    (hc : t.cfg = s.cfg) : t.WaitInv := by
  unfold State.WaitInv
  rw [hk, hw, hc]
  exact h

/-- The fetched word depends on `pc`, the memory and the configuration. -/
theorem State.fetchWord_congr {s t : State} (hpc : t.pc = s.pc) (hm : t.mem = s.mem) (hc : t.cfg = s.cfg) :
    t.fetchWord = s.fetchWord := by
  simp only [State.fetchWord, State.byteAt, State.bound, hpc, hm, hc]

/-- An `Fx0A` that leaves `KEYWAIT` set holds `pc`, so that its own word is fetched again. -/
theorem execLdVxK_waits {x : RegId} {s t : State} (h : execLdVxK x s = .next t) (ht : t.keywait = true) :
    t.fetchWord = s.fetchWord := by
  cases hk : s.leastPressed with
  | some k =>
    rw [execLdVxK_of_pressed x s hk] at h
    obtain rfl := Host.Outcome.next.inj h
    cases ht
  | none =>
    rw [execLdVxK_of_none x s hk] at h
    obtain rfl := Host.Outcome.next.inj h
    rfl

/-- A cycle of an engine that waits is one of `Fx0A`, and only `Fx0A` sets `KEYWAIT`. -/
theorem exec_of_keywait {i : Instr} {s t : State} (hinv : s.keywait = true → ∃ x, i = .ldVxK x)
    (h : exec i s = .next t) (ht : t.keywait = true) : ∃ x, i = .ldVxK x := by
  by_cases hs : s.keywait = true
  · exact hinv hs
  · exact keywait_mem_parts (exec_writer h fun hsame : t.keywait = s.keywait => hs (hsame ▸ ht))

theorem step_waitInv {s t : State} (hinv : s.WaitInv) (h : step s = .next t) : t.WaitInv := by
  rcases step_next_cases h with ⟨-, rfl⟩ | ⟨-, i, u, hd, hx, rfl⟩ | ⟨-, w, hd, rfl⟩
  · exact hinv.congr rfl rfl rfl
  · intro ht
    rw [State.endCycle_keywait] at ht
    obtain ⟨x, rfl⟩ : ∃ x, i = .ldVxK x := by
      refine exec_of_keywait (fun hs => ?_) hx ht
      obtain ⟨x, hx'⟩ := hinv (by simpa using hs)
      exact ⟨x, Decoded.instr.inj (hd.symm.trans hx')⟩
    have again : u.fetchWord = s.fetchWord := (execLdVxK_waits hx ht).trans (s.clearDiag.fetch_fetchWord)
    have hcfg : u.cfg = s.cfg := (exec_cfg hx).trans s.clearDiag.fetch_cfg
    refine ⟨x, ?_⟩
    rw [State.fetchWord_congr u.endCycle_pc u.endCycle_mem u.endCycle_cfg, u.endCycle_cfg, hcfg, again, hd]
  · intro ht
    have hs : s.keywait = true := by simpa [State.unrecognized] using ht
    obtain ⟨x, hx⟩ := hinv hs
    cases hd.symm.trans hx

/-- Settles O49: a cycle that leaves `KEYWAIT` set was one of `Fx0A` that held `pc`; `initialize` clears `KEYWAIT`, and
the other actions do not touch what the next cycle fetches. -/
theorem waitingEngineStaysAtItsWait : Obligations.WaitingEngineStaysAtItsWait := by
  unfold Obligations.WaitingEngineStaysAtItsWait
  intro a s t hinv h
  cases a with
  | init P =>
    obtain ⟨-, rfl⟩ := portInit_next h
    intro hk
    cases hk
  | step => exact step_waitInv hinv h
  | redrawAck | toneAck =>
    obtain rfl := Host.Outcome.next.inj h
    exact hinv.congr rfl rfl rfl
  | keyIn k p =>
    obtain ⟨hk, rfl⟩ := portKeyIn_next h
    exact hinv.congr rfl rfl rfl

/-- Settles O51: nothing is listed, reported, halted or waiting. -/
theorem resetMeetsTheInvariants : Obligations.ResetMeetsTheInvariants := by
  unfold Obligations.ResetMeetsTheInvariants
  refine ⟨⟨Memory.wf_nil _, diagShape_nil, fun h => ?_⟩, fun h => ?_⟩ <;> cases h

/-! ### The end of a halt (R246) -/

theorem portInit_halted {s t : State} {P : List Byte} (h : portInit P s = .next t) : t.halted = false := by
  obtain ⟨-, rfl⟩ := portInit_next h
  rfl

theorem step_of_halted {s t : State} (hs : s.halted = true) (h : step s = .next t) : t = s.clearDiag :=
  (Host.Outcome.next.inj ((step_halted hs).symm.trans h)).symm

/-- Settles O55: a halted cycle only clears `DIAG`, and no port but `INIT` writes `HALTED`. -/
theorem onlyInitializeEndsAHalt : Obligations.OnlyInitializeEndsAHalt := by
  unfold Obligations.OnlyInitializeEndsAHalt
  refine ⟨fun a s t hs h => ?_, fun P s t => portInit_halted, fun s t hs h => ?_⟩
  · cases a with
    | init P => exact .inr ⟨P, rfl⟩
    | step => exact .inl ((step_of_halted hs h).symm ▸ hs)
    | redrawAck | toneAck => exact .inl (Host.Outcome.next.inj h ▸ hs)
    | keyIn k p =>
      obtain ⟨hk, rfl⟩ := portKeyIn_next h
      exact .inl hs
  · rw [step_of_halted hs h, State.clearDiag_diag]

/-! ### The ports (R37, R40) -/

theorem step_cfg {s t : State} (h : step s = .next t) : t.cfg = s.cfg := by
  rcases step_next_cases h with ⟨-, rfl⟩ | ⟨-, i, u, -, hx, rfl⟩ | ⟨-, w, -, rfl⟩
  · rfl
  · rw [State.endCycle_cfg, exec_cfg hx, State.fetch_cfg, State.clearDiag_cfg]
  · rw [State.endCycle_cfg, State.unrecognized, State.advance_cfg, State.raise_cfg, State.fetch_cfg,
      State.clearDiag_cfg]

theorem hostAct_cfg {a : HostAction} {s t : State} (h : hostAct a s = .next t) : t.cfg = s.cfg := by
  cases a with
  | init P =>
    obtain ⟨-, rfl⟩ := portInit_next h
    rfl
  | step => exact step_cfg h
  | redrawAck | toneAck => exact Host.Outcome.next.inj h ▸ rfl
  | keyIn k p =>
    obtain ⟨hk, rfl⟩ := portKeyIn_next h
    rfl

theorem changesOnly_tone (s : State) (b : Bool) : ChangesOnly [.tone] s { s with tone := b } := by
  intro p hp
  cases p <;> simp [Part.same, State.reg, State.byteAt] at hp ⊢

theorem changesOnly_redraw (s : State) (b : Bool) : ChangesOnly [.redraw] s { s with redraw := b } := by
  intro p hp
  cases p <;> simp [Part.same, State.reg, State.byteAt] at hp ⊢

/-- Settles O59: each port clears its flag, and no host action writes the configuration. -/
theorem acknowledgePortsAnswerAndClear : Obligations.AcknowledgePortsAnswerAndClear := by
  unfold Obligations.AcknowledgePortsAnswerAndClear
  exact ⟨fun s => ⟨rfl, rfl, changesOnly_redraw s false⟩, fun s => ⟨rfl, rfl, changesOnly_tone s false⟩,
    fun a s t => hostAct_cfg⟩

end Sys2Proof.Machine
end
